-- ==== Sys2Proof/Config.lean ====
section
/-! DEFINITION. What is fixed for the machine: the parameters of R9, the open parameter T_pd of R10, and the free values
the spec calls `any value` (93_implementation_defined.md U1 to U3). -/

namespace Sys2Proof.Config

/-- W: the width of the input port in bits (R9). -/
def inputWidth : Nat := 8

/-- The number of encodings (R9). -/
def encodings : Nat := 256

/-- BIAS (R9, R81). -/
def bias : Int := 7

/-- EMIN = 1 - BIAS, the effective exponent of every denormalized input (R9, R81; 90_conflicts.md C3). -/
def emin : Int := 1 - bias

/-- EMAX = 14 - BIAS, the largest effective exponent of a finite value (R9). -/
def emax : Int := 14 - bias

/-- The exponent field of the special values: all ones (R9). -/
def specialExponent : BitVec 4 := 0b1111#4

/-- T_pd: the time from the last change of the input port to the moment every output port holds its final value (R10).
Open: no rule depends on its value, so it has no body here. Time is counted in an unnamed unit (log 3, DESIGN CHOICE). -/
opaque tPd : Nat

/-- FREE VALUE: what `kind` shows at the n-th moment observed while the outputs are not settled (R140, R144, R145; log 2). -/
opaque unsettledKind : Nat → BitVec 2

/-- FREE VALUE: what `sign` shows at the n-th unsettled moment (log 2). -/
opaque unsettledSign : Nat → BitVec 1

/-- FREE VALUE: what `exp_eff` shows at the n-th unsettled moment (log 2). -/
opaque unsettledExpEff : Nat → BitVec 4

/-- FREE VALUE: what `sig` shows at the n-th unsettled moment (log 2). -/
opaque unsettledSig : Nat → BitVec 4

end Sys2Proof.Config
end

