-- ==== Sys2Proof/Word.lean ====
section
/-! DEFINITION. The words of the block: the one input byte, its three fields and the 11-bit output bundle. -/

namespace Sys2Proof

/-- An input word: one 8-bit minifloat encoding (R27, R60). -/
abbrev Byte := BitVec 8

/-- A single bit: the sign field and the `sign` port (R29, R61). -/
abbrev Bit := BitVec 1

/-- The stored exponent field e, unsigned (R62). -/
abbrev Exponent := BitVec 4

/-- The mantissa field m, unsigned (R63). -/
abbrev Mantissa := BitVec 3

/-- The 11-bit bundle of the four output ports (R32). -/
abbrev Bundle := BitVec 11

end Sys2Proof
end

