-- ==== Sys2Proof/Syntax.lean ====
section
/-! DEFINITION. The four decoder classes, each a row of the opcode table, with the fields of the input word as operands
(R60 to R65; 92_eei_decisions.md D15: the 8-bit input word is the only instruction word). -/

namespace Sys2Proof

/-- The classes of R65, in the source's priority order (R66). -/
inductive DecClass where
  | inf
  | nan
  | sub
  | norm
  deriving DecidableEq, Repr

/-- One constructor per row of the opcode table. A field that the row's pattern fixes is no operand. -/
inductive Instr where
  /-- DEC_INF, `s1111000` (R83). -/
  | decInf (sgn : Bit)
  /-- DEC_NAN, `s1111mmm` with m not 0 (R84). -/
  | decNan (sgn : Bit) (m : Mantissa)
  /-- DEC_SUB, `s0000mmm` (R85). -/
  | decSub (sgn : Bit) (m : Mantissa)
  /-- DEC_NORM, `seeeemmm` with e in 1 to 14 (R86). -/
  | decNorm (sgn : Bit) (e : Exponent) (m : Mantissa)
  deriving DecidableEq, Repr

/-- The class an instruction stands for. -/
def Instr.cls : Instr → DecClass
  | .decInf _ => .inf
  | .decNan _ _ => .nan
  | .decSub _ _ => .sub
  | .decNorm _ _ _ => .norm

/-- The mnemonic of the opcode table's row. -/
def DecClass.mnemonic : DecClass → String
  | .inf => "DEC_INF"
  | .nan => "DEC_NAN"
  | .sub => "DEC_SUB"
  | .norm => "DEC_NORM"

end Sys2Proof
end

