-- ==== Sys2Proof/WellFormed.lean ====
section
/-! DEFINITION. The `constraint` column of the opcode table (R69): which operands an instruction may have. -/

namespace Sys2Proof

/-- The row's constraint on its operands: m not 0 for DEC_NAN, e in 1 to 14 for DEC_NORM, nothing for the others (R69). -/
def Instr.wf : Instr → Bool
  | .decInf _ => true
  | .decNan _ m => m != 0#3
  | .decSub _ _ => true
  | .decNorm _ e _ => e != 0b0000#4 && e != 0b1111#4

/-- `Instr.wf` as a proposition. -/
abbrev Instr.WellFormed (i : Instr) : Prop := i.wf = true

end Sys2Proof
end

