-- ==== Sys2Proof/Decode.lean ====
section
/-! DEFINITION. From an input word to the class it belongs to, and back: the fields of R60 to R64, the decoder of R65 and
R66, the opcode table of R69 read in both ways it gives, and the encoder. -/

namespace Sys2Proof

/-! ### Fields -/

/-- s = bits[7] (R61). -/
def signField (b : Byte) : Bit := b.extractLsb' 7 1

/-- e = bits[6:3] (R62). -/
def exponentField (b : Byte) : Exponent := b.extractLsb' 3 4

/-- m = bits[2:0] (R63). -/
def mantissaField (b : Byte) : Mantissa := b.extractLsb' 0 3

/-- The input word made of its three fields, most significant first (R60). -/
def assemble (sgn : Bit) (e : Exponent) (m : Mantissa) : Byte := sgn ++ e ++ m

/-! ### The decoder -/

/-- The class of an input and its operands, tested in the order of R66. Total: no encoding is illegal (R70, R93). A row's
`match` word that another row's condition claims is that other row's (log 14). -/
def decode (b : Byte) : Instr :=
  if exponentField b = Config.specialExponent then
    if mantissaField b = 0#3 then .decInf (signField b)
    else .decNan (signField b) (mantissaField b)
  else if exponentField b = 0#4 then .decSub (signField b) (mantissaField b)
  else .decNorm (signField b) (exponentField b) (mantissaField b)

/-- Why a number is no input word. -/
inductive DecodeReject where
  /-- The number does not fit the 8-bit port (R121, R122): it is turned away, never masked (90_conflicts.md C4). -/
  | outOfRange
  deriving DecidableEq, Repr

/-- The decoder on a number: what a consumer that holds the word in a wider integer has to do first (R122). -/
def decodeWord (w : Nat) : Except DecodeReject Instr :=
  if w < Config.encodings then .ok (decode (BitVec.ofNat 8 w)) else .error .outOfRange

/-- The decoder on a word of the opcode table: its one format has 8 bits (R60, R71; log 11). -/
def decodeTableWord (nbits w : Nat) : Option Instr :=
  if nbits = Config.inputWidth then (decodeWord w).toOption else none

/-! ### The encoder -/

/-- The input word of an instruction: the pattern of its row of the opcode table (R69). -/
def encode : Instr → Byte
  | .decInf sgn => assemble sgn 0b1111#4 0b000#3
  | .decNan sgn m => assemble sgn 0b1111#4 m
  | .decSub sgn m => assemble sgn 0b0000#4 m
  | .decNorm sgn e m => assemble sgn e m

/-! ### The classes and the opcode table -/

/-- The condition column of R65, each class on its own. -/
def classCondition : DecClass → Byte → Bool
  | .inf, b => exponentField b == 15#4 && mantissaField b == 0#3
  | .nan, b => exponentField b == 15#4 && mantissaField b != 0#3
  | .sub, b => exponentField b == 0#4
  | .norm, b => decide (1 ≤ (exponentField b).toNat) && decide ((exponentField b).toNat ≤ 14)

/-- One `[match, mask]` pair of R69. -/
structure MatchMask where
  bits : Byte
  mask : Byte
  deriving DecidableEq, Repr

/-- An input b matches a pair when (b AND mask) = match (R69). -/
def MatchMask.covers (p : MatchMask) (b : Byte) : Bool := (b &&& p.mask) == p.bits

/-- One row of the opcode table, as R69 describes it. -/
structure OpcodeRow where
  cls : DecClass
  byPriority : MatchMask
  matchSet : List MatchMask
  count : Nat
  deriving DecidableEq, Repr

/-- The opcode table, its rows in priority order (R69). -/
def opcodeTable : List OpcodeRow :=
  [ { cls := .inf, byPriority := ⟨0x78, 0x7F⟩, matchSet := [⟨0x78, 0x7F⟩], count := 2 },
    { cls := .nan, byPriority := ⟨0x78, 0x78⟩,
      matchSet := [⟨0x79, 0x7F⟩, ⟨0x7A, 0x7E⟩, ⟨0x7C, 0x7C⟩], count := 14 },
    { cls := .sub, byPriority := ⟨0x00, 0x78⟩, matchSet := [⟨0x00, 0x78⟩], count := 16 },
    { cls := .norm, byPriority := ⟨0x00, 0x00⟩,
      matchSet := [⟨0x08, 0x78⟩, ⟨0x10, 0x70⟩, ⟨0x20, 0x60⟩, ⟨0x40, 0x60⟩, ⟨0x60, 0x70⟩, ⟨0x70, 0x78⟩],
      count := 224 } ]

/-- "Tried in priority order, the first row that matches is the class" (R69). -/
def classByPriority (b : Byte) : Option DecClass :=
  (opcodeTable.find? fun r => r.byPriority.covers b).map OpcodeRow.cls

/-- The classes some pair of whose `match_set` an input matches, whatever the order (R69). -/
def classesByMatchSet (b : Byte) : List DecClass :=
  (opcodeTable.filter fun r => r.matchSet.any fun p => p.covers b).map OpcodeRow.cls

/-- How many of the 256 inputs are in a class (R68). -/
def classCount (c : DecClass) : Nat :=
  (List.range Config.encodings).countP fun n => (decode (BitVec.ofNat 8 n)).cls == c

end Sys2Proof
end

