-- ==== Sys2Proof/Machine/State.lean ====
section
/-! DEFINITION. What a model of the block holds: its ports (10_state.md section 2), where they stand with respect to settling
(R140, R144, R145), and what the consumer is about to do (R72). The block has no architectural state of its own (R20). -/

namespace Sys2Proof.Machine

/-- What is on the input port `bits[7:0]`. -/
inductive InputPort where
  /-- Every bit is a valid 0 or 1: the port carries an integer 0 to 255 (R27). -/
  | driven (b : Byte)
  /-- Some bit is floating, unknown or changing: the port carries no integer (R145, U2; log 4). -/
  | invalid
  deriving DecidableEq, Repr

/-- Where the block stands on its way to a settled moment (R10, R80, R144). -/
inductive Stability where
  /-- Power is stable and the input has been valid and unchanged for T_pd: the outputs are final. -/
  | settled
  /-- Power has been stable and the input valid and unchanged for `held` units of time only (0 where either fails). -/
  | unsettled (held : Nat)
  deriving DecidableEq, Repr

/-- The four output ports (R28 to R31). -/
@[ext]
structure Outputs where
  kind : BitVec 2
  sign : Bit
  expEff : BitVec 4
  sig : BitVec 4
  deriving DecidableEq, Repr

/-- The abstract result (R15): a finite value is a sign and an exact magnitude, so that the two zeros differ
(90_conflicts.md C6); a NaN carries nothing. -/
inductive Decoded where
  | finite (neg : Bit) (mag : ℚ)
  | infinity (neg : Bit)
  | nan
  deriving DecidableEq, Repr

/-- One thing the outside world does to the block. -/
inductive Stimulus where
  /-- `DECODE 0xHH`: the input is driven and held until the outputs settle (R72, D12). -/
  | decode (b : Byte)
  /-- The port is driven, and observed before any time has passed (R144, R145). -/
  | drive (p : InputPort)
  /-- The ports are left alone for `t` units of time (R10). -/
  | hold (t : Nat)
  /-- Power becomes stable, or is no longer (R140, R142). -/
  | power (stable : Bool)
  /-- The consumer reads the outputs (R44, R135). -/
  | sample
  deriving DecidableEq, Repr

/-- The whole state of the model; INVENTORY.md lists each field with its rule and its value at reset. -/
@[ext]
structure State where
  /-- The input port (R27, R145). -/
  input : InputPort
  /-- Whether power is stable (R140). -/
  powerStable : Bool
  /-- How far the outputs are from settled (R10, R144). -/
  stability : Stability
  /-- The output ports (R28 to R31). -/
  out : Outputs
  /-- The model's own field: the stimuli the consumer presents next, first one first (R72, D12; log 5). -/
  pending : List Stimulus
  /-- The model's own field: how many free values have been taken (U1 to U3; log 2). -/
  freeCount : Nat
  deriving DecidableEq, Repr

/-- Why the machine stops. -/
inductive Fault where
  /-- A consumer read `kind` = 2'b11 from a settled block (R34, U4). Raised by `Outputs.abs`, and so by the stimulus
  `sample`. SAFE: the spec gives the code no meaning, and no state that keeps `State.Consistent` raises it. -/
  | undefinedKind
  deriving DecidableEq, Repr

/-- Why the model gives no next state. -/
inductive Refusal where
  /-- An instruction without a meaning yet. Raised by nothing: every class has its meaning. SAFE. -/
  | notModelled (mnemonic : String)
  /-- `stepInstance` was asked for an instance that is not there (R132). Never raised by `step`. SAFE. -/
  | noSuchInstance
  deriving DecidableEq, Repr

/-- The outputs the n-th unsettled moment shows: free values, one for each port (R144, R145; log 2). DESIGN CHOICE, unsafe
(log 16): every block draws from the same free values by its own `freeCount`, so two instances at equal counts, two of them at
reset among these, show the same; the spec says any value of each and relates them nowhere. -/
def Outputs.free (n : Nat) : Outputs where
  kind := Config.unsettledKind n
  sign := Config.unsettledSign n
  expEff := Config.unsettledExpEff n
  sig := Config.unsettledSig n

/-- The block right after power has become stable: nothing drives the port yet, the outputs are any value, and no stimulus
waits. There is no reset input and nothing to reset (R35, R140); log 1 names each choice. -/
def State.reset : State where
  input := .invalid
  powerStable := true
  stability := .unsettled 0
  out := Outputs.free 0
  pending := []
  freeCount := 1

end Sys2Proof.Machine
end

