-- ==== Sys2Proof/Machine/Operands.lean ====
section
/-! DEFINITION. The operand arithmetic of the block (R13, R87, R88), the bundle of the output ports (R32) and what the outputs
stand for (R33, R89, R98). -/

namespace Sys2Proof.Machine

/-! ### Two's complement (R13, K2) -/

/-- twos_4(k): the 4-bit two's complement pattern of k (R13; log 12). -/
def twos4 (k : Int) : BitVec 4 := BitVec.ofInt 4 k

/-- sval_4(p): the integer a 4-bit two's complement pattern stands for (R13; log 12). -/
def sval4 (p : BitVec 4) : Int := if p.getLsbD 3 then (p.toNat : Int) - 16 else p.toNat

/-! ### What the finite classes compute -/

/-- The effective exponent of a normalized input, e - BIAS (R87). -/
def effectiveExponent (e : Exponent) : Int := (e.toNat : Int) - Config.bias

/-- sig = (implicit bit, m) (R88). -/
def significand (implicit : Bit) (m : Mantissa) : BitVec 4 := implicit ++ m

/-- The source's fraction (00_scope.md glossary; R85, R86): m/8 for a denormalized input, 1 + m/8 for a normalized one. -/
def fraction (b : Byte) : ℚ :=
  if exponentField b = 0#4 then (mantissaField b).toNat / 8 else 1 + (mantissaField b).toNat / 8

/-- The effective exponent of a finite input (R81, R87): EMIN where e = 0, e - BIAS otherwise. -/
def finiteExponent (b : Byte) : Int :=
  if exponentField b = 0#4 then Config.emin else effectiveExponent (exponentField b)

/-- The whole operation, line by line as R82 writes it. -/
def decodeWhole (b : Byte) : Outputs :=
  let s := signField b
  let e := exponentField b
  let m := mantissaField b
  if e = 15#4 then
    if m = 0#3 then { kind := 0b01#2, sign := s, expEff := 0b0000#4, sig := 0b0000#4 }
    else { kind := 0b10#2, sign := 0b0#1, expEff := 0b0000#4, sig := 0b0000#4 }
  else if e = 0#4 then
    { kind := 0b00#2, sign := s, expEff := twos4 Config.emin, sig := significand 0b0#1 m }
  else
    { kind := 0b00#2, sign := s, expEff := twos4 (effectiveExponent e), sig := significand 0b1#1 m }

/-! ### The bundle -/

/-- out = (kind, sign, exp_eff, sig), with kind[1] at bit 10 and sig[0] at bit 0 (R32). -/
def Outputs.bundle (o : Outputs) : Bundle := o.kind ++ o.sign ++ o.expEff ++ o.sig

/-- The four ports of a bundle (R32). -/
def Outputs.ofBundle (w : Bundle) : Outputs where
  kind := w.extractLsb' 9 2
  sign := w.extractLsb' 8 1
  expEff := w.extractLsb' 4 4
  sig := w.extractLsb' 0 4

/-! ### What the outputs stand for -/

/-- The exact magnitude sig × 2^(sval_4(exp_eff) - 3) of a finite result (R33, R89). -/
def Outputs.magnitude (o : Outputs) : ℚ := (o.sig.toNat : ℚ) * (2 : ℚ) ^ (sval4 o.expEff - 3)

/-- The abstraction function of R33. `kind` = 2'b11 stands for no value: reading it is a fault (R34, U4). -/
def Outputs.abs (o : Outputs) : Except Fault Decoded :=
  if o.kind = 0b00#2 then .ok (.finite o.sign o.magnitude)
  else if o.kind = 0b01#2 then .ok (.infinity o.sign)
  else if o.kind = 0b10#2 then .ok .nan
  else .error .undefinedKind

/-- (-1)^s (R13). -/
def signFactor (s : Bit) : Int := if s = 0b0#1 then 1 else -1

/-- The value (-1)^sign × sig × 2^(sval_4(exp_eff) - 3) of a finite result (R89). -/
def Outputs.value (o : Outputs) : ℚ := (signFactor o.sign : ℚ) * o.magnitude

/-- The number a finite result stands for, (-1)^neg × mag; infinities and NaN stand for none (R15). -/
def Decoded.number : Decoded → Option ℚ
  | .finite neg mag => some ((signFactor neg : ℚ) * mag)
  | .infinity _ => none
  | .nan => none

/-- One result lies below another on the number line, the infinities at its ends (R96, R15); a NaN lies nowhere (log 10). -/
def Decoded.below : Decoded → Decoded → Bool
  | .finite n₁ m₁, .finite n₂ m₂ => decide ((signFactor n₁ : ℚ) * m₁ < (signFactor n₂ : ℚ) * m₂)
  | .finite _ _, .infinity n => n == 0b0#1
  | .infinity n, .finite _ _ => n == 0b1#1
  | .infinity n₁, .infinity n₂ => n₁ == 0b1#1 && n₂ == 0b0#1
  | _, .nan => false
  | .nan, _ => false

/-- The integer value × 2^9 of a finite result, (-1)^sign × sig × 2^(sval_4(exp_eff) + 6) (R98). -/
def Outputs.integerImage (o : Outputs) : Int :=
  signFactor o.sign * (o.sig.toNat : Int) * 2 ^ (sval4 o.expEff + 6).toNat

end Sys2Proof.Machine
end

