-- ==== Sys2Proof/Machine/Ops.lean ====
section
/-! DEFINITION. The named operations over the state: driving the ports, letting time pass, settling, and what one stimulus
does. The block takes no exception and returns from none (R120, R126, R127), so there is no operation for either. -/

namespace Sys2Proof.Machine

/-! ### Ports -/

/-- `out.<port> <- v` for the four output ports at once (R14, R32). -/
def State.driveOutputs (s : State) (o : Outputs) : State := { s with out := o }

/-- The stimuli left once the first has been taken. -/
def State.withPending (s : State) (rest : List Stimulus) : State := { s with pending := rest }

/-- The outputs are final: power is stable and the input has been held for T_pd (R80). -/
def State.markSettled (s : State) : State := { s with stability := .settled }

/-- An unsettled moment: the outputs are any value, a fresh free value each time (R144, R145, R140; log 2). -/
def State.markUnsettled (s : State) (held : Nat) : State :=
  { s with stability := .unsettled held, out := Outputs.free s.freeCount, freeCount := s.freeCount + 1 }

/-- The input port is driven. Driving what is there already is no change (R10 counts from the last CHANGE; log 6). -/
def State.changeInput (s : State) (p : InputPort) : State :=
  if p = s.input then s else { s with input := p, stability := .unsettled 0 }

/-- Power becomes stable or unstable; the time to settle starts again where this is a change (R140; log 7). -/
def State.setPower (s : State) (stable : Bool) : State :=
  if stable = s.powerStable then s else { s with powerStable := stable, stability := .unsettled 0 }

/-! ### Settling -/

/-- The word the block decodes, where it can settle at all: power is stable and every input bit is valid (R140, R145). -/
def State.settlingByte (s : State) : Option Byte :=
  match s.powerStable, s.input with
  | true, .driven b => some b
  | _, _ => none

/-- Everything stays as it is until the outputs settle. `run` is what the block does with a settled input word (R80, R82).
DESIGN CHOICE (log 5): where the block cannot settle, power not being stable or the input not valid, the stimulus is not held
for ever; it ends in one moment of free values, and the next stimulus may be presented after it. -/
def settle (run : Byte → State → Host.Outcome State Fault Refusal) (s : State) : Host.Outcome State Fault Refusal :=
  match s.settlingByte with
  | some b => run b s.markSettled
  | none => .next (s.markUnsettled 0)

/-- Everything stays as it is for `t` units of time: the outputs are settled once T_pd has passed, any value before (R80,
R144). T_pd is an argument, as R10 has it. -/
def elapse (tPd : Nat) (run : Byte → State → Host.Outcome State Fault Refusal) (t : Nat) (s : State) :
    Host.Outcome State Fault Refusal :=
  match s.settlingByte, s.stability with
  | some b, .settled => run b s
  | some b, .unsettled held =>
    if tPd ≤ held + t then run b s.markSettled else .next (s.markUnsettled (held + t))
  | none, _ => .next (s.markUnsettled 0)

/-- The consumer reads the outputs, which has no side effect (R44). A settled `kind` of 2'b11 is a fault (R34). What it reads
from an unsettled block is any value, a fresh one at this moment too, and reading it is no fault (R144; log 8). -/
def sampleOutputs (s : State) : Host.Outcome State Fault Refusal :=
  match s.stability with
  | .unsettled held => .next (s.markUnsettled held)
  | .settled =>
    match s.out.abs with
    | .ok _ => .next s
    | .error f => .fault f

/-- One observed moment: the next stimulus is presented and what it leaves on the ports is the next state; with no stimulus
left the consumer leaves the ports alone until they settle (D12; log 5). -/
def stepWith (tPd : Nat) (run : Byte → State → Host.Outcome State Fault Refusal) (s : State) :
    Host.Outcome State Fault Refusal :=
  match s.pending with
  | [] => settle run s
  | .decode b :: rest => settle run ((s.withPending rest).changeInput (.driven b))
  | .drive p :: rest => elapse tPd run 0 ((s.withPending rest).changeInput p)
  | .hold t :: rest => elapse tPd run t (s.withPending rest)
  | .power stable :: rest => elapse tPd run 0 ((s.withPending rest).setPower stable)
  | .sample :: rest => sampleOutputs (s.withPending rest)

/-- `DECODE` of an input word placed first among the stimuli, power made stable, so that the next step runs it (R72; log 5).
A number that is no 8-bit word places nothing (R121; log 11). -/
def State.loadWord (s : State) (nbits w : Nat) : State :=
  if nbits = Config.inputWidth ∧ w < Config.encodings then
    (s.setPower true).withPending (.decode (BitVec.ofNat 8 w) :: s.pending)
  else s

end Sys2Proof.Machine
end

