-- ==== Sys2Proof/Machine/Finite.lean ====
section
/-! DEFINITION. The meanings of the finite classes: DEC_SUB (R85) and DEC_NORM (R86). -/

namespace Sys2Proof.Machine

/-- DEC_SUB (R85, R90): `Finite(s, m × 2^-9)`, the signed zeros among them. -/
def execDecSub (sgn : Bit) (m : Mantissa) (s : State) : Host.Outcome State Fault Refusal :=
  .next (s.driveOutputs
    { kind := 0b00#2, sign := sgn, expEff := twos4 Config.emin, sig := significand 0b0#1 m })

/-- DEC_NORM (R86, R87): `Finite(s, (8 + m) × 2^(e - 10))`. The decoder gives it no e outside 1 to 14 (log 13). -/
def execDecNorm (sgn : Bit) (e : Exponent) (m : Mantissa) (s : State) : Host.Outcome State Fault Refusal :=
  .next (s.driveOutputs
    { kind := 0b00#2, sign := sgn, expEff := twos4 (effectiveExponent e), sig := significand 0b1#1 m })

end Sys2Proof.Machine
end

