-- ==== Sys2Proof/Machine/Special.lean ====
section
/-! DEFINITION. The meanings of the special classes: DEC_INF (R83) and DEC_NAN (R84). -/

namespace Sys2Proof.Machine

/-- DEC_INF (R83): `Infinity(s)`. -/
def execDecInf (sgn : Bit) (s : State) : Host.Outcome State Fault Refusal :=
  .next (s.driveOutputs { kind := 0b01#2, sign := sgn, expEff := 0b0000#4, sig := 0b0000#4 })

/-- DEC_NAN (R84, R91, R92): the one `NaN`; the sign and the mantissa of the input reach no output. The
decoder gives it no m of 0 (log 13). -/
def execDecNan (_sgn : Bit) (_m : Mantissa) (s : State) : Host.Outcome State Fault Refusal :=
  .next (s.driveOutputs { kind := 0b10#2, sign := 0b0#1, expEff := 0b0000#4, sig := 0b0000#4 })

end Sys2Proof.Machine
end

