-- ==== Sys2Proof/Machine/Dispatch.lean ====
section
/-! DEFINITION. One arm per class of the opcode table. -/

namespace Sys2Proof.Machine

def exec (i : Instr) (s : State) : Host.Outcome State Fault Refusal :=
  match i with
  | .decInf sgn => Sys2Proof.Machine.execDecInf sgn s
  | .decNan sgn m => Sys2Proof.Machine.execDecNan sgn m s
  | .decSub sgn m => Sys2Proof.Machine.execDecSub sgn m s
  | .decNorm sgn e m => Sys2Proof.Machine.execDecNorm sgn e m s

end Sys2Proof.Machine
end

