-- ==== Sys2Proof/Machine/Step.lean ====
section
/-! DEFINITION. One step of the block: the next settled or unsettled moment the outside world lets it reach (R80, R144). -/

namespace Sys2Proof.Machine

/-- A step of a block whose delay is `tPd`, with the decoder and the meanings as what it does with a settled input word
(R10, R80, R82). -/
def stepAt (tPd : Nat) (s : State) : Host.Outcome State Fault Refusal :=
  stepWith tPd (fun b => exec (decode b)) s

/-- A step of the block, its delay left open (R10). -/
def step (s : State) : Host.Outcome State Fault Refusal := stepAt Config.tPd s

/-- The state in which the very next step decodes the word `w` of the opcode table (log 5, log 11). -/
def State.withFetchWord (s : State) (nbits w : Nat) : State := s.loadWord nbits w

end Sys2Proof.Machine
end

