-- ==== Sys2Proof/Machine/Flags.lean ====
section
/-! DEFINITION. The block has no status flag and no condition code (R23, R123). What a consumer can test is the `kind` port:
this file holds those tests and the partition the consumer of R135 makes with them. -/

namespace Sys2Proof.Machine

/-- The consumer's three buckets (R135). -/
inductive Bucket where
  | finite
  | infinite
  | nan
  deriving DecidableEq, Repr

/-- `kind[1]` is the NaN test (R28, D3). -/
def Outputs.isNaN (o : Outputs) : Bool := o.kind.getLsbD 1

/-- `kind[0]` is the infinity test (R28, D3). -/
def Outputs.isInfinity (o : Outputs) : Bool := o.kind.getLsbD 0

/-- The bucket of a result by `kind` alone (R28, R135); none for the code that is never driven (R34). -/
def Outputs.bucket (o : Outputs) : Option Bucket :=
  if o.kind = 0b00#2 then some .finite
  else if o.kind = 0b01#2 then some .infinite
  else if o.kind = 0b10#2 then some .nan
  else none

end Sys2Proof.Machine
end

