-- ==== Sys2Proof/Machine/Gates.lean ====
section
/-! DEFINITION. The gate-level realisation of R101, and the block built with it. -/

namespace Sys2Proof.Machine

/-- The equations of R101. -/
def gateOutputs (b : Byte) : Outputs :=
  let s := signField b
  let e := exponentField b
  let m := mantissaField b
  let all1 := e == 0b1111#4
  let all0 := e == 0b0000#4
  let mnz := m != 0b000#3
  { kind := BitVec.ofBool (all1 && mnz) ++ BitVec.ofBool (all1 && !mnz)
    sign := s &&& ~~~ BitVec.ofBool (all1 && mnz)
    expEff := if all1 then 0b0000#4 else if all0 then 0b1010#4 else e + 0b1001#4
    sig := if all1 then 0b0000#4 else BitVec.ofBool (!all0) ++ m }

/-- The step of a block whose outputs are computed by the gates of R101. DESIGN CHOICE (log 17): before it settles it shows
the free values the block shows, and it has a delay `tPd` as the block has. -/
def gateStep (tPd : Nat) (s : State) : Host.Outcome State Fault Refusal :=
  stepWith tPd (fun b t => .next (t.driveOutputs (gateOutputs b))) s

end Sys2Proof.Machine
end

