-- ==== Sys2Proof/Machine/Instances.lean ====
section
/-! DEFINITION. Any number of instances side by side (R47, R132; 92_eei_decisions.md D13): a list of states that share nothing.
Instances driven at the same moment are stepped one after the other, in any order (log 9). The spec does not say that all
instances settle equally fast: `delay k` is the T_pd of the k-th (R10; log 9). -/

namespace Sys2Proof.Machine

/-- One step of the k-th instance; the others are left as they are (R132). DESIGN CHOICE, safe (log 18): where the k-th
faults (a settled 2'b11 is read, R34, U4) the outcome for the whole list is that fault, and no state of any instance is kept;
the spec does not say what the others do then. -/
def stepInstance (delay : Nat → Nat) (k : Nat) (ss : List State) : Host.Outcome (List State) Fault Refusal :=
  match ss[k]? with
  | none => .refused .noSuchInstance
  | some s =>
    match stepAt (delay k) s with
    | .next t => .next (ss.set k t)
    | .fault f => .fault f
    | .refused r => .refused r

/-- One step of the k-th and then one of the j-th instance; a fault of the first leaves the second unstepped (log 18). -/
def stepTwo (delay : Nat → Nat) (k j : Nat) (ss : List State) : Host.Outcome (List State) Fault Refusal :=
  match stepInstance delay k ss with
  | .next ts => stepInstance delay j ts
  | .fault f => .fault f
  | .refused r => .refused r

end Sys2Proof.Machine
end

