-- ==== Sys2Proof/Safety.lean ====
section
/-! DEFINITION. What counts as a safe run, in the terms the claims use. -/

namespace Sys2Proof.Machine

/-- The state an outcome goes on with. -/
def nextOf {σ φ ρ : Type} : Host.Outcome σ φ ρ → Option σ
  | .next s => some s
  | .fault _ => none
  | .refused _ => none

/-- At a settled moment power is stable, the input is valid and the outputs are its decode (R80); and a powered block whose
valid input has been held for T_pd IS settled (R80, R140). -/
def State.Consistent (tPd : Nat) (s : State) : Prop :=
  match s.stability, s.input with
  | .settled, .driven b => s.powerStable = true ∧ s.out = decodeWhole b
  | .settled, .invalid => False
  | .unsettled held, .driven _ => s.powerStable = true → held < tPd
  | .unsettled _, .invalid => True

/-- Power is stable and the consumer presents `DECODE b` next (R72, R140). -/
abbrev State.Presents (s : State) (b : Byte) : Prop := s.powerStable = true ∧ s.pending.head? = some (.decode b)

/-- Power is stable and `b` is on the port (R80, R140). -/
abbrev State.Drives (s : State) (b : Byte) : Prop := s.powerStable = true ∧ s.input = .driven b

/-- The next step ends at a settled moment whose outputs stand for `d` (R33, R80). -/
def State.SettlesOn (tPd : Nat) (s : State) (d : Decoded) : Prop :=
  ∃ t, stepAt tPd s = .next t ∧ t.stability = .settled ∧ t.out.abs = .ok d

/-- A stimulus program: every input is held until the outputs have settled (R72, D12). -/
def stimulusProgram (bs : List Byte) : List Stimulus := bs.map Stimulus.decode

/-- A consumer's clock period is long enough for the block and its own set-up time (R148). -/
abbrev Consumer.periodOk (tPd setup period : Nat) : Prop := tPd + setup ≤ period

/-- The block with its delay as an argument (R10). -/
def coreAt (tPd : Nat) : Host.Core where
  State := State
  Fault := Fault
  Refusal := Refusal
  step := stepAt tPd
  reset := State.reset

/-- `n` steps of the block whose delay is `tPd`. -/
def runAt (tPd n : Nat) (s : State) : Host.Outcome State Fault Refusal := (coreAt tPd).run n s

/-- The block with the outputs computed by the gates of R101. -/
def gateCore (tPd : Nat) : Host.Core where
  State := State
  Fault := Fault
  Refusal := Refusal
  step := gateStep tPd
  reset := State.reset

/-- `n` steps of the gate-level block. -/
def gateRunAt (tPd n : Nat) (s : State) : Host.Outcome State Fault Refusal := (gateCore tPd).run n s

/-- The block as the lookup table of R52. -/
def tableCore (tPd : Nat) : Host.Core where
  State := State
  Fault := Fault
  Refusal := Refusal
  step := tableStep tPd
  reset := State.reset

/-- `n` steps of the lookup table. -/
def tableRunAt (tPd n : Nat) (s : State) : Host.Outcome State Fault Refusal := (tableCore tPd).run n s

end Sys2Proof.Machine
end

