-- ==== Sys2Proof/Certificates/Slice0/Obligations.lean ====
section
/-! DEFINITION. The statements about the block, from the numbered rules of the spec. -/

open Sys2Proof Sys2Proof.Machine

/-! ### The input word and its classes -/

/-- The operand fields of every well-formed instruction come back from its word (R60, R69). -/
def Obligations.DecodeOfEncodeIsTheInstruction : Prop :=
  ∀ i : Instr, i.WellFormed → decode (encode i) = i

/-- Every one of the 256 inputs is the word of exactly one well-formed instruction (R70, R93). -/
def Obligations.EveryByteIsTheWordOfOneInstruction : Prop :=
  ∀ b : Byte, ∃ i : Instr, i.WellFormed ∧ encode i = b ∧ ∀ j : Instr, j.WellFormed → encode j = b → j = i

/-- Words written out bit by bit from the patterns of R69. -/
def Obligations.WordsWrittenFromThePatternsDecode : Prop :=
  decode 0b01111000 = .decInf 0 ∧ decode 0b11111000 = .decInf 1 ∧
  decode 0b01111001 = .decNan 0 1 ∧ decode 0b11111110 = .decNan 1 6 ∧
  decode 0b00000000 = .decSub 0 0 ∧ decode 0b10000011 = .decSub 1 3 ∧
  decode 0b00001000 = .decNorm 0 1 0 ∧ decode 0b01010101 = .decNorm 0 10 5 ∧ decode 0b11110111 = .decNorm 1 14 7

/-- The shift-and-mask forms of R61, R62 and R63. -/
def Obligations.FieldsAreTakenByShiftAndMask : Prop :=
  ∀ b : Byte,
    (signField b).toNat = (b.toNat >>> 7) &&& 1 ∧
    (exponentField b).toNat = (b.toNat >>> 3) &&& 0xF ∧
    (mantissaField b).toNat = b.toNat &&& 0x7 ∧
    assemble (signField b) (exponentField b) (mantissaField b) = b

/-- The classes of R65: an input's class is the one whose condition it meets, whatever its sign, and gives the kind of the
table's `result kind` column. -/
def Obligations.EachInputFallsInExactlyOneClass : Prop :=
  (∀ (b : Byte) (c : DecClass), classCondition c b = true ↔ (decode b).cls = c) ∧
  (∀ b : Byte, (decode (b ^^^ 0x80)).cls = (decode b).cls) ∧
  ∀ (b : Byte) (s : State), ∃ t, exec (decode b) s = .next t ∧
    t.out.kind = match (decode b).cls with
      | .inf => 0b01#2
      | .nan => 0b10#2
      | .sub => 0b00#2
      | .norm => 0b00#2

/-- Any order of testing the conditions of R65 gives the same class (R66). -/
def Obligations.AnyTestOrderGivesTheSameClass : Prop :=
  ∀ (b : Byte) (l : List DecClass), l.Perm [.inf, .nan, .sub, .norm] →
    l.find? (fun c => classCondition c b) = some (decode b).cls

/-- Both readings of the opcode table (R69): in priority order, and by pairs that do not overlap, cover everything and never
look at the sign bit. -/
def Obligations.OpcodeTableDecodesBothWays : Prop :=
  (∀ b : Byte, classByPriority b = some (decode b).cls ∧ classesByMatchSet b = [(decode b).cls] ∧
    ((opcodeTable.flatMap OpcodeRow.matchSet).countP fun p => p.covers b) = 1) ∧
  ∀ r ∈ opcodeTable, r.count = classCount r.cls ∧
    ∀ p ∈ r.byPriority :: r.matchSet, p.mask.getLsbD 7 = false

/-- The encodings of each class, listed and counted (R68). -/
def Obligations.ClassEncodingsListedAndCounted : Prop :=
  classCount .inf = 2 ∧ classCount .nan = 14 ∧ classCount .sub = 16 ∧ classCount .norm = 224 ∧
  classCount .inf + classCount .nan = 16 ∧ classCount .sub + classCount .norm = 240 ∧
  ∀ b : Byte,
    ((decode b).cls = .inf ↔ b = 0x78 ∨ b = 0xF8) ∧
    ((decode b).cls = .nan ↔ (0x79 ≤ b ∧ b ≤ 0x7F) ∨ 0xF9 ≤ b) ∧
    ((decode b).cls = .sub ↔ b ≤ 0x07 ∨ (0x80 ≤ b ∧ b ≤ 0x87)) ∧
    ((decode b).cls = .norm ↔ (0x08 ≤ b ∧ b ≤ 0x77) ∨ (0x88 ≤ b ∧ b ≤ 0xF7)) ∧
    ((decodeWhole b).abs = .ok (.finite (signField b) 0) ↔ b = 0x00 ∨ b = 0x80)

/-- A number that does not fit the port is turned away and never masked; one that fits is decoded (R121, R122; log 11). -/
def Obligations.NumberOutsideThePortIsTurnedAway : Prop :=
  ∀ w : Nat,
    (256 ≤ w → decodeWord w = .error .outOfRange ∧ ∀ nbits, decodeTableWord nbits w = none) ∧
    (w < 256 → decodeWord w = .ok (decode (BitVec.ofNat 8 w)) ∧
      decodeTableWord 8 w = some (decode (BitVec.ofNat 8 w)))

/-! ### The classes' meanings -/

/-- DEC_INF (R83): selection, encoding, ports, result; nothing but the outputs changes. -/
def Obligations.InfinityClassDrivesSignedInfinity : Prop :=
  (∀ b : Byte, ((decode b).cls = .inf ↔ exponentField b = 15#4 ∧ mantissaField b = 0#3) ∧
    ((decode b).cls = .inf ↔ b &&& 0x7F = 0x78) ∧
    ((decode b).cls = .inf ↔ b = 0x78 ∨ b = 0xF8) ∧
    ((decode b).cls = .inf → decode b = .decInf (signField b))) ∧
  ∀ (sgn : Bit) (s : State), ∃ o : Outputs,
    exec (.decInf sgn) s = .next { s with out := o } ∧
    o.kind = 0b01#2 ∧ o.sign = sgn ∧ o.expEff = 0b0000#4 ∧ o.sig = 0b0000#4 ∧
    o.abs = .ok (.infinity sgn) ∧ o.bundle = if sgn = 0#1 then 0x200 else 0x300

/-- DEC_NAN (R84): selection, encoding, ports, result; nothing but the outputs changes. -/
def Obligations.NaNClassDrivesTheSingleNaN : Prop :=
  (∀ b : Byte, ((decode b).cls = .nan ↔ exponentField b = 15#4 ∧ mantissaField b ≠ 0#3) ∧
    ((decode b).cls = .nan ↔ (0x79 ≤ b ∧ b ≤ 0x7F) ∨ 0xF9 ≤ b) ∧
    ((decode b).cls = .nan ↔ b &&& 0x7F = 0x79 ∨ b &&& 0x7E = 0x7A ∨ b &&& 0x7C = 0x7C) ∧
    ((decode b).cls = .nan → decode b = .decNan (signField b) (mantissaField b))) ∧
  ∀ (sgn : Bit) (m : Mantissa) (s : State), ∃ o : Outputs,
    exec (.decNan sgn m) s = .next { s with out := o } ∧
    o.kind = 0b10#2 ∧ o.sign = 0b0#1 ∧ o.expEff = 0b0000#4 ∧ o.sig = 0b0000#4 ∧
    o.abs = .ok .nan ∧ o.bundle = 0x400

/-- DEC_SUB (R85): selection, encoding, ports, the exact result m × 2^-9; nothing but the outputs changes. -/
def Obligations.SubnormalClassDrivesExactValue : Prop :=
  (∀ b : Byte, ((decode b).cls = .sub ↔ exponentField b = 0#4) ∧
    ((decode b).cls = .sub ↔ b &&& 0x78 = 0x00) ∧
    ((decode b).cls = .sub → decode b = .decSub (signField b) (mantissaField b))) ∧
  ∀ (sgn : Bit) (m : Mantissa) (s : State), ∃ o : Outputs,
    exec (.decSub sgn m) s = .next { s with out := o } ∧
    o.kind = 0b00#2 ∧ o.sign = sgn ∧ o.expEff = 0b1010#4 ∧ o.sig = 0b0#1 ++ m ∧
    o.abs = .ok (.finite sgn ((m.toNat : ℚ) * (2 : ℚ) ^ (-9 : ℤ))) ∧
    (m = 0#3 → o.abs = .ok (.finite sgn 0)) ∧
    (sgn = 0#1 → m = 1#3 → o.bundle = 0x0A1) ∧ (sgn = 1#1 → m = 0#3 → o.bundle = 0x1A0)

/-- DEC_NORM (R86): selection, encoding, ports, the exact result (8 + m) × 2^(e - 10); nothing but the outputs changes. The
ports are as the rule says for the operands the class has, e in 1 to 14. -/
def Obligations.NormalClassDrivesExactValue : Prop :=
  (∀ b : Byte, ((decode b).cls = .norm ↔ 1 ≤ (exponentField b).toNat ∧ (exponentField b).toNat ≤ 14) ∧
    ((decode b).cls = .norm ↔ b &&& 0x78 = 0x08 ∨ b &&& 0x70 = 0x10 ∨ b &&& 0x60 = 0x20 ∨ b &&& 0x60 = 0x40 ∨
      b &&& 0x70 = 0x60 ∨ b &&& 0x78 = 0x70) ∧
    ((decode b).cls = .norm → decode b = .decNorm (signField b) (exponentField b) (mantissaField b))) ∧
  ∀ (sgn : Bit) (e : Exponent) (m : Mantissa) (s : State), (Instr.decNorm sgn e m).WellFormed → ∃ o : Outputs,
    exec (.decNorm sgn e m) s = .next { s with out := o } ∧
    o.kind = 0b00#2 ∧ o.sign = sgn ∧ o.expEff = BitVec.ofInt 4 ((e.toNat : ℤ) - 7) ∧ o.sig = 0b1#1 ++ m ∧
    o.abs = .ok (.finite sgn ((8 + (m.toNat : ℚ)) * (2 : ℚ) ^ ((e.toNat : ℤ) - 10))) ∧
    (sgn = 0#1 → e = 7#4 → m = 0#3 → o.bundle = 0x008) ∧ (sgn = 1#1 → e = 14#4 → m = 7#3 → o.bundle = 0x17F)

/-- Frame of all four classes: an instruction drives the output ports, with values no state has a part in, and touches
nothing else (R20, R26, R44). -/
def Obligations.EveryClassOnlyDrivesTheOutputs : Prop :=
  ∀ i : Instr, ∃ o : Outputs, ∀ s : State, exec i s = .next { s with out := o }

/-- The whole operation of R82, its branches written out; the code 2'b11 is never driven. -/
def Obligations.DecodeIsTheWholeOperation : Prop :=
  ∀ (b : Byte) (s : State),
    let sgn := signField b
    let e := exponentField b
    let m := mantissaField b
    ∃ o : Outputs, exec (decode b) s = .next { s with out := o } ∧ o.kind ≠ 0b11#2 ∧
      o = if e = 15#4 then
            if m = 0#3 then ⟨0b01#2, sgn, 0b0000#4, 0b0000#4⟩ else ⟨0b10#2, 0b0#1, 0b0000#4, 0b0000#4⟩
          else if e = 0#4 then ⟨0b00#2, sgn, 0b1010#4, 0b0#1 ++ m⟩
          else ⟨0b00#2, sgn, BitVec.ofInt 4 ((e.toNat : ℤ) - 7), 0b1#1 ++ m⟩

/-- The output ports one by one: R29 for `sign`, R30 for `exp_eff`, R31 for `sig`. -/
def Obligations.OutputPortsBySourceOfTheirBits : Prop :=
  ∀ (b : Byte) (s : State), ∃ t, exec (decode b) s = .next t ∧
    (t.out.kind = 0b10#2 → t.out.sign = 0#1) ∧
    (t.out.kind ≠ 0b10#2 → t.out.sign = b.extractLsb' 7 1) ∧
    (t.out.kind = 0b00#2 →
      t.out.expEff = twos4 (finiteExponent b) ∧ sval4 t.out.expEff = finiteExponent b ∧ -6 ≤ finiteExponent b ∧ finiteExponent b ≤ 7 ∧
      t.out.sig = (if exponentField b = 0#4 then 0#1 else 1#1) ++ mantissaField b ∧
      (t.out.sig.toNat : ℚ) = 8 * fraction b) ∧
    (t.out.kind ≠ 0b00#2 → t.out.expEff = 0b0000#4 ∧ t.out.sig = 0b0000#4)

/-- The `kind` port is the tag of the result (R28) and all a consumer needs to sort the results (R135). -/
def Obligations.KindTagsTheResult : Prop :=
  ∀ (b : Byte) (s : State), ∃ t d, exec (decode b) s = .next t ∧ t.out.abs = .ok d ∧ t.out.kind ≠ 0b11#2 ∧
    (t.out.kind = 0b00#2 ↔ (exponentField b).toNat ≤ 14) ∧
    (t.out.kind = 0b01#2 ↔ exponentField b = 15#4 ∧ mantissaField b = 0#3) ∧
    (t.out.kind = 0b10#2 ↔ exponentField b = 15#4 ∧ mantissaField b ≠ 0#3) ∧
    (t.out.bucket = some .finite ↔ ∃ neg mag, d = .finite neg mag) ∧
    (t.out.bucket = some .infinite ↔ ∃ neg, d = .infinity neg) ∧
    (t.out.bucket = some .nan ↔ d = .nan) ∧
    (t.out.isNaN = true ↔ d = .nan) ∧
    (t.out.isInfinity = true ↔ ∃ neg, d = .infinity neg)

/-! ### The arithmetic -/

/-- twos_4 and sval_4 are inverse to each other on the range -8 to 7 (R13). -/
def Obligations.TwosComplementRoundTrips : Prop :=
  (∀ k : ℤ, -8 ≤ k → k < 8 → sval4 (twos4 k) = k ∧ ((twos4 k).toNat : ℤ) = k % 16) ∧
  ∀ p : BitVec 4, twos4 (sval4 p) = p ∧ -8 ≤ sval4 p ∧ sval4 p < 8

/-- The constants of R81: BIAS = 7 and EMIN = 1 - BIAS = -6, the effective exponent of e = 1. -/
def Obligations.ConstantsOfTheFormat : Prop :=
  Config.bias = 7 ∧ Config.emin = 1 - Config.bias ∧ Config.emin = -6 ∧ effectiveExponent 1#4 = Config.emin ∧
  ∀ (sgn : Bit) (m : Mantissa) (s : State), ∃ t, exec (.decSub sgn m) s = .next t ∧ sval4 t.out.expEff = Config.emin

/-- The bias subtraction at hardware width (R87), and that the exponents on which it would wrap never reach it. -/
def Obligations.BiasSubtractionNeverWraps : Prop :=
  (∀ e : Exponent, 1 ≤ e.toNat → e.toNat ≤ 14 →
    Config.emin ≤ effectiveExponent e ∧ effectiveExponent e ≤ Config.emax ∧
    sval4 (twos4 (effectiveExponent e)) = effectiveExponent e ∧
    twos4 (effectiveExponent e) = e + 0b1001#4 ∧
    twos4 (effectiveExponent e) = (e.setWidth 5 - 7#5).setWidth 4) ∧
  (Config.emin = -6 ∧ Config.emax = 7 ∧ effectiveExponent 15#4 = 8 ∧ sval4 (twos4 8) = -8 ∧ effectiveExponent 0#4 = -7) ∧
  ∀ (b : Byte) (sgn : Bit) (e : Exponent) (m : Mantissa), decode b = .decNorm sgn e m → 1 ≤ e.toNat ∧ e.toNat ≤ 14

/-- The significand of a finite result (R88). -/
def Obligations.SignificandHoldsTheImplicitBit : Prop :=
  ∀ (b : Byte) (s : State), exponentField b ≠ 15#4 → ∃ t, exec (decode b) s = .next t ∧
    t.out.sig.toNat = (if exponentField b = 0#4 then 0 else 8) + (mantissaField b).toNat ∧
    (t.out.sig.toNat : ℚ) = 8 * fraction b ∧
    (t.out.sig.getLsbD 3 = true ↔ exponentField b ≠ 0#4)

/-- The value of a finite result is the source's (-1)^sign × 2^(effective exponent) × fraction (R89). -/
def Obligations.FiniteValueIsTheSourcesFormula : Prop :=
  ∀ (b : Byte) (s : State), exponentField b ≠ 15#4 → ∃ t mag, exec (decode b) s = .next t ∧
    t.out.abs = .ok (.finite (signField b) mag) ∧ 0 ≤ mag ∧
    (Decoded.finite (signField b) mag).number = some t.out.value ∧
    t.out.value = (signFactor t.out.sign : ℚ) * t.out.sig.toNat * (2 : ℚ) ^ (sval4 t.out.expEff - 3) ∧
    t.out.value = (signFactor (signField b) : ℚ) * (2 : ℚ) ^ finiteExponent b * fraction b

/-- The integer image of a finite result and its bounds (R98). -/
def Obligations.FiniteValueTimes512IsABoundedInteger : Prop :=
  ∀ (b : Byte) (s : State), exponentField b ≠ 15#4 → ∃ t, exec (decode b) s = .next t ∧
    t.out.value * (2 : ℚ) ^ (9 : ℕ) = (t.out.integerImage : ℚ) ∧
    -122880 ≤ t.out.integerImage ∧ t.out.integerImage ≤ 122880 ∧
    0 ≤ sval4 t.out.expEff + 6 ∧ sval4 t.out.expEff + 6 ≤ 13

/-- What the outputs of any block stand for (R33): the fields a tag does not use are no part of the meaning. -/
def Obligations.AbstractionReadsOnlyTheTaggedCase : Prop :=
  (∀ o p : Outputs,
    (o.kind = 0b00#2 → o.abs = .ok (.finite o.sign (o.sig.toNat * (2 : ℚ) ^ (sval4 o.expEff - 3)))) ∧
    (o.kind = 0b01#2 → o.abs = .ok (.infinity o.sign)) ∧
    (o.kind = 0b10#2 → o.abs = .ok .nan) ∧
    (o.abs = .error .undefinedKind ↔ o.kind = 0b11#2) ∧
    (o.kind = p.kind → o.kind ≠ 0b00#2 → o.sign = p.sign → o.abs = p.abs)) ∧
  ∀ (b : Byte) (s : State), exponentField b ≠ 15#4 → ∃ t, exec (decode b) s = .next t ∧
    t.out.abs = .ok (.finite (signField b) ((2 : ℚ) ^ finiteExponent b * fraction b))

/-- The 11-bit bundle loses nothing, and its bits stand where R32 puts them. -/
def Obligations.BundleHoldsTheFourPorts : Prop :=
  (∀ o : Outputs, Outputs.ofBundle o.bundle = o ∧
    o.bundle.getLsbD 10 = o.kind.getLsbD 1 ∧ o.bundle.getLsbD 9 = o.kind.getLsbD 0 ∧
    o.bundle.getLsbD 8 = o.sign.getLsbD 0 ∧
    (∀ k < 4, o.bundle.getLsbD (4 + k) = o.expEff.getLsbD k) ∧ ∀ k < 4, o.bundle.getLsbD k = o.sig.getLsbD k) ∧
  ∀ w : Bundle, (Outputs.ofBundle w).bundle = w

/-! ### Laws of the decoded values, read at settled moments -/

/-- The rows of R67: the value at m = 0 and at m = 7, the step between neighbours, and the mirrored negative values. -/
def Obligations.ExponentFieldFixesValuesAndStep : Prop :=
  ∀ (e : Exponent) (s : State), e ≠ 15#4 → ∀ m : Mantissa, ∃ t u,
    exec (decode (assemble 0#1 e m)) s = .next t ∧ exec (decode (assemble 1#1 e m)) s = .next u ∧
    u.out.value = -t.out.value ∧ u.out.sign = 1#1 ∧ t.out.sign = 0#1 ∧
    (m = 0#3 → t.out.value = if e = 0#4 then 0 else (2 : ℚ) ^ ((e.toNat : ℤ) - 7)) ∧
    (m = 7#3 → t.out.value =
      if e = 0#4 then 7 * (2 : ℚ) ^ (-9 : ℤ) else 15 * (2 : ℚ) ^ ((e.toNat : ℤ) - 10)) ∧
    (m ≠ 7#3 → ∃ v, exec (decode (assemble 0#1 e (m + 1#3))) s = .next v ∧
      v.out.value - t.out.value = (2 : ℚ) ^ ((max e.toNat 1 : ℤ) - 10))

/-- Signed zero (R90): 0x00 and 0x80 give different results that stand for the same number. -/
def Obligations.SignedZerosDifferOnlyInSign : Prop :=
  ∀ (tPd : Nat) (s r : State), s.Presents 0x00 → r.Presents 0x80 → ∃ t u x y,
    stepAt tPd s = .next t ∧ stepAt tPd r = .next u ∧
    t.out.bundle = 0x0A0 ∧ u.out.bundle = 0x1A0 ∧ u.out = { t.out with sign := 1#1 } ∧ t.out.sign = 0#1 ∧
    t.out.abs = .ok x ∧ u.out.abs = .ok y ∧ x ≠ y ∧ x.number = some 0 ∧ y.number = some 0

/-- NaN collapse (R91, R92): which NaN came in reaches no output; the sign output is gated by the NaN condition. -/
def Obligations.NaNInputsCannotBeToldApart : Prop :=
  (∀ (tPd : Nat) (s r : State) (b c : Byte), (decode b).cls = .nan → (decode c).cls = .nan →
    s.Presents b → r.Presents c → ∃ t u, stepAt tPd s = .next t ∧ stepAt tPd r = .next u ∧
      t.out = u.out ∧ t.out.abs = .ok .nan) ∧
  ∀ (b : Byte) (s : State), ∃ t, exec (decode b) s = .next t ∧
    t.out.sign = signField b &&& ~~~ BitVec.ofBool (exponentField b == 15#4 && mantissaField b != 0#3)

/-- Sign symmetry (R95). -/
def Obligations.FlippingTheSignBitFlipsOnlySign : Prop :=
  ∀ (tPd : Nat) (s r : State) (b : Byte), s.Presents b → r.Presents (b ^^^ 0x80) → ∃ t u,
    stepAt tPd s = .next t ∧ stepAt tPd r = .next u ∧
    ((decode b).cls ≠ .nan → u.out = { t.out with sign := ~~~ t.out.sign }) ∧
    ((decode b).cls = .nan → u.out = t.out)

/-- Monotonicity (R96): rising over 0x00 to 0x78, with the step the rule gives up to 0x77, falling over 0x80 to 0xF7. -/
def Obligations.ValueRisesWithTheInput : Prop :=
  ∀ (tPd : Nat) (s r : State) (a b : Byte), s.Presents a → r.Presents b →
    (a < b → b ≤ 0x78 → ∃ x y, s.SettlesOn tPd x ∧ r.SettlesOn tPd y ∧ x.below y = true) ∧
    (0x80 ≤ a → a < b → b ≤ 0xF7 → ∃ x y, s.SettlesOn tPd x ∧ r.SettlesOn tPd y ∧ y.below x = true) ∧
    (a < 0x77 → b = a + 1 → ∃ x y p q, s.SettlesOn tPd x ∧ r.SettlesOn tPd y ∧
      x.number = some p ∧ y.number = some q ∧
      q - p = (2 : ℚ) ^ ((max (exponentField a).toNat 1 : ℤ) - 10))

/-- The named values of R97, each as an extreme of the results it names. -/
def Obligations.ExtremesOfTheFiniteMagnitudes : Prop :=
  ∀ (tPd : Nat) (s : State) (b : Byte), exponentField b ≠ 15#4 → s.Presents b → ∃ mag,
    s.SettlesOn tPd (.finite (signField b) mag) ∧
    (mag ≠ 0 → (2 : ℚ) ^ (-9 : ℤ) ≤ mag) ∧ mag ≤ 240 ∧
    ((decode b).cls = .sub → mag ≤ 7 * (2 : ℚ) ^ (-9 : ℤ)) ∧
    ((decode b).cls = .norm → (2 : ℚ) ^ (-6 : ℤ) ≤ mag) ∧
    (∀ k : ℤ, mag = (2 : ℚ) ^ k → k ≤ 7) ∧
    (b = 0x01 → mag = (2 : ℚ) ^ (-9 : ℤ)) ∧ (b = 0x07 → mag = 7 * (2 : ℚ) ^ (-9 : ℤ)) ∧
    (b = 0x08 → mag = (2 : ℚ) ^ (-6 : ℤ)) ∧ (b = 0x38 → mag = 1) ∧ (b = 0x70 → mag = 128) ∧
    (b = 0x77 ∨ b = 0xF7 → mag = 240)

/-- Results tell finite inputs apart, and numbers tell them apart but for the two zeros; with the counts of R99. -/
def Obligations.FiniteResultsAreDistinctAndCounted : Prop :=
  (∀ (tPd : Nat) (s r : State) (a b : Byte) (x y : Decoded), exponentField a ≠ 15#4 → exponentField b ≠ 15#4 →
    s.Presents a → r.Presents b → s.SettlesOn tPd x → r.SettlesOn tPd y →
    (x = y → a = b) ∧ (x.number = y.number → a = b ∨ (a &&& 0x7F = 0 ∧ b &&& 0x7F = 0))) ∧
  (let outs := (List.range 256).map fun n => decodeWhole (BitVec.ofNat 8 n)
   let finite := outs.filter fun o => o.kind == 0b00#2
   finite.length = 240 ∧ (finite.map Outputs.value).dedup.length = 239 ∧
   (finite.map Outputs.magnitude).dedup.length = 120 ∧
   (outs.countP fun o => o.kind == 0b01#2) = 2 ∧ (outs.countP fun o => o.bundle == 0x400) = 14)

/-! ### The step, settling and the outside world -/

/-- A step runs the decoded instruction: a stimulus that presents the word of `i` makes the next step the meaning of `i`, with
the word on the port and the moment settled. That a step takes the first of a queue of stimuli is the model's choice (log 5). -/
def Obligations.StepRunsThePresentedInstruction : Prop :=
  ∀ (s : State) (b : Byte), s.Presents b →
    step s = exec (decode b) { s with input := .driven b, stability := .settled, pending := s.pending.tail } ∧
    ∀ i : Instr, i.WellFormed → b = encode i →
      step s = exec i { s with input := .driven b, stability := .settled, pending := s.pending.tail }

/-- With no stimulus waiting, a step runs the instruction whose word is on the port. That such an idle step runs on to the
settled moment is the MODEL'S CHOICE (DESIGN CHOICE, log 5); R80 and R82 say only what the settled moment shows. -/
def Obligations.StepRunsTheInstructionOnThePort : Prop :=
  ∀ (s : State) (i : Instr), i.WellFormed → s.Drives (encode i) → s.pending = [] →
    step s = exec i { s with stability := .settled }

/-- The word a host places is the one the very next step runs (the model's way of loading, log 5). -/
def Obligations.PlacedWordIsRunByTheNextStep : Prop :=
  ∀ (s : State) (w : Nat), s.powerStable = true → w < 256 →
    step (s.withFetchWord 8 w) =
      exec (decode (BitVec.ofNat 8 w))
        { s with input := .driven (BitVec.ofNat 8 w), stability := .settled }

/-- `DECODE b` leaves the block settled on decode(b) whatever came before, and changes nothing else (R80, R82; that one step
holds the input until it has settled is the model's choice, log 5). -/
def Obligations.DecodeStimulusSettlesOnItsDecode : Prop :=
  ∀ (tPd : Nat) (s : State) (b : Byte), s.Presents b →
    stepAt tPd s = .next { s with
      input := .driven b, stability := .settled, pending := s.pending.tail, out := decodeWhole b }

/-- Totality (R93): exactly one class applies to an input, exactly one result is produced, and none is an error (R120). -/
def Obligations.EveryInputGivesExactlyOneResult : Prop :=
  ∀ (tPd : Nat) (s : State) (b : Byte), s.Presents b →
    (∃ c, classCondition c b = true ∧ ∀ c', classCondition c' b = true → c' = c) ∧
    ∃ d, s.SettlesOn tPd d ∧ (∀ d', s.SettlesOn tPd d' → d' = d) ∧
      ((∃ neg mag, d = .finite neg mag) ∨ (∃ neg, d = .infinity neg) ∨ d = .nan)

/-- The same input gives the same bundle, whatever the block did before and whatever its delay (R100, R20, R26). -/
def Obligations.SameInputGivesTheSameBundle : Prop :=
  ∀ (tPd tPd' : Nat) (s r : State) (b : Byte), s.Presents b → r.Presents b → ∃ t u,
    stepAt tPd s = .next t ∧ stepAt tPd' r = .next u ∧ t.out.bundle = u.out.bundle

/-- An input held for T_pd is settled on its decode; held for less, the outputs are any value (R80, R144; log 2, log 3). -/
def Obligations.HeldInputSettlesAfterTheDelay : Prop :=
  ∀ (tPd held t : Nat) (s : State) (b : Byte), s.Drives b → s.stability = .unsettled held →
    s.pending.head? = some (.hold t) →
    (tPd ≤ held + t → stepAt tPd s = .next { s with
      stability := .settled, pending := s.pending.tail, out := decodeWhole b }) ∧
    (held + t < tPd → stepAt tPd s = .next { s with
      stability := .unsettled (held + t), pending := s.pending.tail,
      out := Outputs.free s.freeCount, freeCount := s.freeCount + 1 })

/-- A change of the input unsettles the outputs at once (R144; log 2). -/
def Obligations.ChangedInputUnsettlesTheOutputs : Prop :=
  ∀ (tPd : Nat) (s : State) (p : InputPort), 0 < tPd → p ≠ s.input → s.pending.head? = some (.drive p) →
    stepAt tPd s = .next { s with
      input := p, stability := .unsettled 0, pending := s.pending.tail,
      out := Outputs.free s.freeCount, freeCount := s.freeCount + 1 }

/-- Without stable power, or with an input bit that is no valid level, time brings no settled moment (R140, R145). The free
values and the step of an empty queue are the model's choice (log 2, log 5). -/
def Obligations.NothingSettlesWithoutPowerAndValidInput : Prop :=
  ∀ (tPd : Nat) (s : State), s.powerStable = false ∨ s.input = .invalid →
    (s.pending = [] ∨ ∃ t, s.pending.head? = some (.hold t)) →
    stepAt tPd s = .next { s with
      stability := .unsettled 0, pending := s.pending.tail,
      out := Outputs.free s.freeCount, freeCount := s.freeCount + 1 }

/-- Losing power, or driving a level that is no valid 0 or 1, unsettles the outputs (R140, R145; log 2). -/
def Obligations.PowerLossOrInvalidLevelUnsettles : Prop :=
  ∀ (tPd : Nat) (s : State),
    (s.powerStable = true → s.pending.head? = some (.power false) →
      stepAt tPd s = .next { s with
        powerStable := false, stability := .unsettled 0, pending := s.pending.tail,
        out := Outputs.free s.freeCount, freeCount := s.freeCount + 1 }) ∧
    (s.input ≠ .invalid → s.pending.head? = some (.drive .invalid) →
      stepAt tPd s = .next { s with
        input := .invalid, stability := .unsettled 0, pending := s.pending.tail,
        out := Outputs.free s.freeCount, freeCount := s.freeCount + 1 })

/-- After power has become stable, an input held for T_pd is decoded; nothing is initialised first (R140, R142). That the time
counts from stable power is the model's reading (DEDUCED, log 7), its unit and the queue the model's choice (log 3, log 5). -/
def Obligations.PowerUpThenHoldSettles : Prop :=
  ∀ (tPd t : Nat) (s : State) (b : Byte) (rest : List Stimulus), s.powerStable = false → s.input = .driven b →
    s.pending = .power true :: .hold t :: rest → tPd ≤ t →
    ∃ u, runAt tPd 2 s = .next u ∧ u.powerStable = true ∧ u.input = .driven b ∧ u.stability = .settled ∧
      u.out = decodeWhole b ∧ u.pending = rest

/-- A settled block whose input is not changed stays as it is: however long it is held (R80) and however often it is read
(R44). The clauses for `DECODE b` and for driving b rest on the MODEL'S READING that rewriting the same word is no change
(DEDUCED, unsafe, log 6); the clause for the empty queue rests on the MODEL'S CHOICE of what an idle step does (log 5). -/
def Obligations.UnchangedInputKeepsTheOutputs : Prop :=
  ∀ (tPd : Nat) (s : State) (b : Byte), s.Consistent tPd → s.stability = .settled → s.input = .driven b →
    (s.pending = [] → stepAt tPd s = .next s) ∧
    ∀ (x : Stimulus) (rest : List Stimulus), s.pending = x :: rest →
      (x = .sample ∨ x = .decode b ∨ x = .drive (.driven b) ∨ x = .power true ∨ ∃ t, x = .hold t) →
      stepAt tPd s = .next { s with pending := rest }

/-- No input drives `kind` = 2'b11, and reading it from a settled block is a fault (R34, U4). -/
def Obligations.ReadingTheUndefinedKindFaults : Prop :=
  (∀ (b : Byte) (s : State), ∃ t, exec (decode b) s = .next t ∧ t.out.kind ≠ 0b11#2) ∧
  ∀ (tPd : Nat) (s : State), s.stability = .settled → s.pending.head? = some .sample →
    (s.out.kind = 0b11#2 → stepAt tPd s = .fault .undefinedKind) ∧
    (s.out.kind ≠ 0b11#2 → stepAt tPd s = .next { s with pending := s.pending.tail })

/-- Nothing else stops the block: no other fault and no refusal, from any state (R120, R126). -/
def Obligations.OnlyAnUndefinedKindStopsTheBlock : Prop :=
  ∀ (tPd : Nat) (s : State),
    (∀ f, stepAt tPd s = .fault f →
      s.stability = .settled ∧ s.pending.head? = some .sample ∧ s.out.kind = 0b11#2) ∧
    ∀ r, stepAt tPd s ≠ .refused r

/-- The next step of a consistent block never stops, and 2'b11 is on no settled `kind` port (R34, R120). -/
def Obligations.ConsistentBlockNeverStops : Prop :=
  ∀ (tPd : Nat) (s : State), s.Consistent tPd →
    (s.stability = .settled → s.out.kind ≠ 0b11#2) ∧ ∃ t, stepAt tPd s = .next t

/-- Every step keeps the settled outputs the decode of the present input, and settles a valid input held for T_pd (R80; how
the time held is counted is the model's, log 3 and log 7). -/
def Obligations.StepKeepsSettledOutputsTheDecode : Prop :=
  ∀ (tPd : Nat) (s t : State), s.Consistent tPd → stepAt tPd s = .next t → t.Consistent tPd

/-- What the block is right after power-up: nothing driven, nothing settled, and consistent (R35, R140; log 1, log 2). -/
def Obligations.ResetIsAnUnsettledConsistentBlock : Prop :=
  (∀ tPd, State.reset.Consistent tPd) ∧ State.reset.stability ≠ .settled ∧ State.reset.input = .invalid ∧
  State.reset.pending = [] ∧ State.reset.out = Outputs.free 0

/-- Any number of steps from a consistent state ends in a consistent state, without a stop (R80, R120). -/
def Obligations.EveryRunGoesOnConsistently : Prop :=
  ∀ (tPd n : Nat) (s : State), s.Consistent tPd → ∃ t, runAt tPd n s = .next t ∧ t.Consistent tPd

/-- One instance presented a sequence of inputs gives, at each settled moment, the decode of the input of that moment (R47,
R146): after any number of `DECODE` stimuli the block is settled on the last one (the queue is the model's choice, log 5). -/
def Obligations.StimulusProgramSettlesOnEachInput : Prop :=
  ∀ (tPd : Nat) (s : State) (bs : List Byte) (b : Byte) (rest : List Stimulus), s.powerStable = true →
    s.pending = stimulusProgram (bs ++ [b]) ++ rest →
    runAt tPd (bs.length + 1) s = .next { s with
      input := .driven b, stability := .settled, pending := rest, out := decodeWhole b }

/-- No result of a stimulus program depends on the block's delay (R10, R147). Where power is not stable this holds by the MODEL'S
CHOICE, since the same free values are shown under either delay (log 2, log 5, log 16). -/
def Obligations.StimulusProgramIgnoresTheDelay : Prop :=
  ∀ (tPd tPd' n : Nat) (s : State) (bs : List Byte), s.pending = stimulusProgram bs →
    runAt tPd n s = runAt tPd' n s

/-- A clocked consumer whose period is long enough samples the decode of what it drives (R148; how time is counted, when
driving is a change and what reading does are the model's, log 3, log 6 and log 8). -/
def Obligations.LongEnoughPeriodSamplesTheDecode : Prop :=
  ∀ (tPd setup period : Nat) (s : State) (b : Byte) (rest : List Stimulus), Consumer.periodOk tPd setup period →
    s.powerStable = true → s.pending = .drive (.driven b) :: .hold (period - setup) :: .sample :: rest →
    ∃ t, runAt tPd 3 s = .next t ∧ t.stability = .settled ∧ t.input = .driven b ∧ t.out = decodeWhole b ∧
      t.pending = rest

/-! ### Other realisations and several instances -/

/-- The gate-level form of R101 gives the block's outcome on every run under the same delay. At settled moments that is R101;
at unsettled ones it is the MODEL'S CHOICE, since both forms show the same free values (log 2, log 16, log 17). -/
def Obligations.GateLevelFormRunsAsTheBlock : Prop :=
  (∀ (b : Byte) (s : State), exec (decode b) s = .next { s with out := gateOutputs b }) ∧
  ∀ (tPd n : Nat) (s : State), gateRunAt tPd n s = runAt tPd n s

/-- The 256-entry table of R52 gives the block's outcome on every run under the same delay. At settled moments that is R52; at
unsettled ones it is the MODEL'S CHOICE, since both show the same free values (log 2, log 16, log 17). -/
def Obligations.LookupTableRunsAsTheBlock : Prop :=
  lookupTable.length = 256 ∧
  (∀ (b : Byte) (s : State), ∃ t, exec (decode b) s = .next t ∧ lookupTable[b.toNat]? = some t.out.bundle) ∧
  ∀ (tPd n : Nat) (s : State), tableRunAt tPd n s = runAt tPd n s

/-- Gates and block agree at every settled moment, however long each takes to settle and whatever each shows before (R101). -/
def Obligations.GatesAgreeWithTheBlockAtSettledMoments : Prop :=
  (∀ (tPd tPd' : Nat) (s r : State) (b : Byte), s.Presents b → r.Presents b → ∃ t u,
    stepAt tPd s = .next t ∧ gateStep tPd' r = .next u ∧ t.stability = .settled ∧ u.stability = .settled ∧
    t.out = u.out ∧ u.out = gateOutputs b) ∧
  ∀ (tPd tPd' n n' : Nat) (s r t u : State), s.Consistent tPd → r.Consistent tPd' →
    runAt tPd n s = .next t → gateRunAt tPd' n' r = .next u →
    t.stability = .settled → u.stability = .settled → t.input = u.input → t.out = u.out

/-- Table and block agree at every settled moment, however long each takes to settle and whatever each shows before (R52). -/
def Obligations.TableAgreesWithTheBlockAtSettledMoments : Prop :=
  lookupTable.length = 256 ∧
  (∀ (tPd tPd' : Nat) (s r : State) (b : Byte), s.Presents b → r.Presents b → ∃ t u,
    stepAt tPd s = .next t ∧ tableStep tPd' r = .next u ∧ t.stability = .settled ∧ u.stability = .settled ∧
    t.out = u.out ∧ lookupTable[b.toNat]? = some t.out.bundle) ∧
  ∀ (tPd tPd' n n' : Nat) (s r t u : State), s.Consistent tPd → r.Consistent tPd' →
    runAt tPd n s = .next t → tableRunAt tPd' n' r = .next u →
    t.stability = .settled → u.stability = .settled → t.input = u.input → t.out = u.out

/-- Stepping one instance does to it what it would do alone, and nothing to the others, each instance having a delay of its own
(R132, R47; instances as a list of states, log 9). -/
def Obligations.InstancesShareNothing : Prop :=
  ∀ (delay : Nat → Nat) (k : Nat) (ss : List State) (s t : State), ss[k]? = some s → stepAt (delay k) s = .next t →
    ∃ ts, stepInstance delay k ss = .next ts ∧ ts.length = ss.length ∧ ts[k]? = some t ∧
      ∀ j, j ≠ k → ts[j]? = ss[j]?

/-- Two instances can be stepped in either order (R47, R132; log 9). Where one of them faults, that both orders end in that
fault rests on the MODEL'S CHOICE that it is the outcome of the whole list (log 18). -/
def Obligations.InstancesStepInAnyOrder : Prop :=
  ∀ (delay : Nat → Nat) (k j : Nat) (ss : List State), k ≠ j → k < ss.length → j < ss.length →
    stepTwo delay k j ss = stepTwo delay j k ss
end

