-- ==== Sys2Proof/Laws/State.lean ====
section
/-! SUPPORT. One lemma per field and update of the state, so that no proof unfolds a record update. -/

namespace Sys2Proof.Machine

variable (s : State)

@[simp] theorem State.driveOutputs_input (o : Outputs) : (s.driveOutputs o).input = s.input := rfl
@[simp] theorem State.driveOutputs_powerStable (o : Outputs) : (s.driveOutputs o).powerStable = s.powerStable := rfl
@[simp] theorem State.driveOutputs_stability (o : Outputs) : (s.driveOutputs o).stability = s.stability := rfl
@[simp] theorem State.driveOutputs_out (o : Outputs) : (s.driveOutputs o).out = o := rfl
@[simp] theorem State.driveOutputs_pending (o : Outputs) : (s.driveOutputs o).pending = s.pending := rfl
@[simp] theorem State.driveOutputs_freeCount (o : Outputs) : (s.driveOutputs o).freeCount = s.freeCount := rfl

@[simp] theorem State.withPending_input (rest : List Stimulus) : (s.withPending rest).input = s.input := rfl
@[simp] theorem State.withPending_powerStable (rest : List Stimulus) : (s.withPending rest).powerStable = s.powerStable := rfl
@[simp] theorem State.withPending_stability (rest : List Stimulus) : (s.withPending rest).stability = s.stability := rfl
@[simp] theorem State.withPending_out (rest : List Stimulus) : (s.withPending rest).out = s.out := rfl
@[simp] theorem State.withPending_pending (rest : List Stimulus) : (s.withPending rest).pending = rest := rfl
@[simp] theorem State.withPending_freeCount (rest : List Stimulus) : (s.withPending rest).freeCount = s.freeCount := rfl

@[simp] theorem State.markSettled_input : (s.markSettled).input = s.input := rfl
@[simp] theorem State.markSettled_powerStable : (s.markSettled).powerStable = s.powerStable := rfl
@[simp] theorem State.markSettled_stability : (s.markSettled).stability = .settled := rfl
@[simp] theorem State.markSettled_out : (s.markSettled).out = s.out := rfl
@[simp] theorem State.markSettled_pending : (s.markSettled).pending = s.pending := rfl
@[simp] theorem State.markSettled_freeCount : (s.markSettled).freeCount = s.freeCount := rfl

@[simp] theorem State.markUnsettled_input (held : Nat) : (s.markUnsettled held).input = s.input := rfl
@[simp] theorem State.markUnsettled_powerStable (held : Nat) : (s.markUnsettled held).powerStable = s.powerStable := rfl
@[simp] theorem State.markUnsettled_stability (held : Nat) : (s.markUnsettled held).stability = .unsettled held := rfl
@[simp] theorem State.markUnsettled_out (held : Nat) : (s.markUnsettled held).out = Outputs.free s.freeCount := rfl
@[simp] theorem State.markUnsettled_pending (held : Nat) : (s.markUnsettled held).pending = s.pending := rfl
@[simp] theorem State.markUnsettled_freeCount (held : Nat) : (s.markUnsettled held).freeCount = s.freeCount + 1 := rfl

@[simp] theorem State.changeInput_powerStable (p : InputPort) : (s.changeInput p).powerStable = s.powerStable := by
  unfold State.changeInput; split <;> rfl
@[simp] theorem State.changeInput_out (p : InputPort) : (s.changeInput p).out = s.out := by
  unfold State.changeInput; split <;> rfl
@[simp] theorem State.changeInput_pending (p : InputPort) : (s.changeInput p).pending = s.pending := by
  unfold State.changeInput; split <;> rfl
@[simp] theorem State.changeInput_freeCount (p : InputPort) : (s.changeInput p).freeCount = s.freeCount := by
  unfold State.changeInput; split <;> rfl

@[simp] theorem State.setPower_input (b : Bool) : (s.setPower b).input = s.input := by
  unfold State.setPower; split <;> rfl
@[simp] theorem State.setPower_out (b : Bool) : (s.setPower b).out = s.out := by
  unfold State.setPower; split <;> rfl
@[simp] theorem State.setPower_pending (b : Bool) : (s.setPower b).pending = s.pending := by
  unfold State.setPower; split <;> rfl
@[simp] theorem State.setPower_freeCount (b : Bool) : (s.setPower b).freeCount = s.freeCount := by
  unfold State.setPower; split <;> rfl

@[simp] theorem State.changeInput_input (p : InputPort) : (s.changeInput p).input = p := by
  unfold State.changeInput; split <;> simp_all

@[simp] theorem State.setPower_powerStable (b : Bool) : (s.setPower b).powerStable = b := by
  unfold State.setPower; split <;> simp_all

/-- Driving what is on the port already changes nothing (log 6). -/
theorem State.changeInput_same (p : InputPort) (h : p = s.input) : s.changeInput p = s := if_pos h

/-- A change of the input starts the time to settle again. -/
theorem State.changeInput_stability_of_ne (p : InputPort) (h : p ≠ s.input) :
    (s.changeInput p).stability = .unsettled 0 := by
  simp [State.changeInput, h]

/-- Power that stays as it is changes nothing. -/
theorem State.setPower_same (b : Bool) (h : b = s.powerStable) : s.setPower b = s := if_pos h

/-- A change of power starts the time to settle again. -/
theorem State.setPower_stability_of_ne (b : Bool) (h : b ≠ s.powerStable) :
    (s.setPower b).stability = .unsettled 0 := by
  simp [State.setPower, h]

end Sys2Proof.Machine
end

