-- ==== Sys2Proof/Laws/Ops.lean ====
section
/-! SUPPORT. One lemma per shared operation that says once everything it can do. -/

namespace Sys2Proof.Machine

/-! ### Reading the outputs -/

/-- The abstraction fails on the code that is never driven, and on nothing else (R33, R34). -/
theorem Outputs.abs_error_iff (o : Outputs) (f : Fault) : o.abs = .error f ↔ o.kind = 0b11#2 := by
  have hk : o.kind = 0b00#2 ∨ o.kind = 0b01#2 ∨ o.kind = 0b10#2 ∨ o.kind = 0b11#2 := by
    generalize o.kind = k; revert k; decide
  cases f
  rcases hk with h | h | h | h <;> simp [Outputs.abs, h]

/-- Where the tag is one of R28's three, the outputs stand for a value. -/
theorem Outputs.abs_ok_of_kind_ne (o : Outputs) (h : o.kind ≠ 0b11#2) : ∃ d, o.abs = .ok d := by
  cases hd : o.abs with
  | ok d => exact ⟨d, rfl⟩
  | error f => exact absurd ((o.abs_error_iff f).1 hd) h

/-- `sample` either stops on the undefined kind of a settled block, or reads what is there, or shows another free value. -/
theorem sampleOutputs_cases (s : State) :
    (∃ held, s.stability = .unsettled held ∧ sampleOutputs s = .next (s.markUnsettled held)) ∨
    (s.stability = .settled ∧ s.out.kind ≠ 0b11#2 ∧ sampleOutputs s = .next s) ∨
    (s.stability = .settled ∧ s.out.kind = 0b11#2 ∧ sampleOutputs s = .fault .undefinedKind) := by
  unfold sampleOutputs
  cases hs : s.stability with
  | unsettled held => exact .inl ⟨held, rfl, rfl⟩
  | settled =>
    right
    cases ha : s.out.abs with
    | ok d =>
      refine .inl ⟨rfl, fun hk => ?_, rfl⟩
      simp [(s.out.abs_error_iff .undefinedKind).2 hk] at ha
    | error f => exact .inr ⟨rfl, (s.out.abs_error_iff f).1 ha, rfl⟩

/-! ### Settling -/

/-- The block has a word to settle on exactly where power is stable and the input valid (R140, R145). -/
theorem State.settlingByte_eq_some (s : State) (b : Byte) :
    s.settlingByte = some b ↔ s.powerStable = true ∧ s.input = .driven b := by
  unfold State.settlingByte
  cases s.powerStable <;> cases s.input <;> simp

/-- It has none where power is not stable or the input is not valid. -/
theorem State.settlingByte_eq_none (s : State) :
    s.settlingByte = none ↔ s.powerStable = false ∨ s.input = .invalid := by
  unfold State.settlingByte
  cases s.powerStable <;> cases s.input <;> simp

variable (run : Byte → State → Host.Outcome State Fault Refusal)

/-- Waiting for a settled moment: the word on the port is decoded, or nothing ever settles. -/
theorem settle_cases (s : State) :
    (∃ b, s.settlingByte = some b ∧ settle run s = run b s.markSettled) ∨
    (s.settlingByte = none ∧ settle run s = .next (s.markUnsettled 0)) := by
  unfold settle
  cases h : s.settlingByte with
  | some b => exact .inl ⟨b, rfl, rfl⟩
  | none => exact .inr ⟨rfl, rfl⟩

/-- Letting time pass: a settled block decodes on, one that has now waited long enough settles, any other shows any value. -/
theorem elapse_cases (tPd t : Nat) (s : State) :
    (∃ b, s.settlingByte = some b ∧ s.stability = .settled ∧ elapse tPd run t s = run b s) ∨
    (∃ b held, s.settlingByte = some b ∧ s.stability = .unsettled held ∧ tPd ≤ held + t ∧
      elapse tPd run t s = run b s.markSettled) ∨
    (∃ b held, s.settlingByte = some b ∧ s.stability = .unsettled held ∧ held + t < tPd ∧
      elapse tPd run t s = .next (s.markUnsettled (held + t))) ∨
    (s.settlingByte = none ∧ elapse tPd run t s = .next (s.markUnsettled 0)) := by
  unfold elapse
  cases hb : s.settlingByte with
  | none => exact .inr (.inr (.inr ⟨rfl, rfl⟩))
  | some b =>
    cases hs : s.stability with
    | settled => exact .inl ⟨b, rfl, rfl, rfl⟩
    | unsettled held =>
      by_cases h : tPd ≤ held + t
      · exact .inr (.inl ⟨b, held, rfl, rfl, h, if_pos h⟩)
      · exact .inr (.inr (.inl ⟨b, held, rfl, rfl, by omega, if_neg h⟩))

end Sys2Proof.Machine
end

