-- ==== Sys2Proof/Laws/Exec.lean ====
section
/-! SUPPORT. What the decoder, the meanings and the whole operation do, said once for each. -/

namespace Sys2Proof

/-- The word of a byte's instruction is the byte. -/
theorem encode_decode : ∀ b : Byte, encode (decode b) = b := by decide

/-- The decoder gives well-formed instructions only. -/
theorem decode_wellFormed : ∀ b : Byte, (decode b).WellFormed := by decide

/-- The fields of an assembled word are the fields it was made of. -/
theorem fields_assemble (sgn : Bit) (e : Exponent) (m : Mantissa) :
    signField (assemble sgn e m) = sgn ∧ exponentField (assemble sgn e m) = e ∧
      mantissaField (assemble sgn e m) = m := by
  refine ⟨?_, ?_, ?_⟩ <;> revert sgn e m <;> decide

/-- The decoder on an assembled word. -/
theorem decode_assemble (sgn : Bit) (e : Exponent) (m : Mantissa) :
    decode (assemble sgn e m) =
      if e = Config.specialExponent then if m = 0#3 then .decInf sgn else .decNan sgn m
      else if e = 0#4 then .decSub sgn m else .decNorm sgn e m := by
  obtain ⟨h₁, h₂, h₃⟩ := fields_assemble sgn e m
  simp only [decode, h₁, h₂, h₃]

namespace Machine

theorem execDecInf_eq (sgn : Bit) (s : State) :
    execDecInf sgn s = .next (s.driveOutputs ⟨0b01#2, sgn, 0b0000#4, 0b0000#4⟩) := rfl

theorem execDecNan_eq (sgn : Bit) (m : Mantissa) (s : State) :
    execDecNan sgn m s = .next (s.driveOutputs ⟨0b10#2, 0b0#1, 0b0000#4, 0b0000#4⟩) := rfl

theorem execDecSub_eq (sgn : Bit) (m : Mantissa) (s : State) :
    execDecSub sgn m s =
      .next (s.driveOutputs ⟨0b00#2, sgn, twos4 Config.emin, significand 0b0#1 m⟩) := rfl

theorem execDecNorm_eq (sgn : Bit) (e : Exponent) (m : Mantissa) (s : State) :
    execDecNorm sgn e m s =
      .next (s.driveOutputs ⟨0b00#2, sgn, twos4 (effectiveExponent e), significand 0b1#1 m⟩) := rfl

/-- The meaning of a byte's class is the whole operation of R82 on the byte. -/
theorem exec_decode (b : Byte) (s : State) : exec (decode b) s = .next (s.driveOutputs (decodeWhole b)) := by
  unfold decode decodeWhole Config.specialExponent
  dsimp only
  split_ifs <;> rfl

/-- No input drives the code 2'b11 (R34, R82). -/
theorem decodeWhole_kind_ne : ∀ b : Byte, (decodeWhole b).kind ≠ 0b11#2 := by decide

/-- A finite input gives the kind FINITE and its own sign. -/
theorem decodeWhole_finite : ∀ b : Byte, exponentField b ≠ 15#4 →
    (decodeWhole b).kind = 0b00#2 ∧ (decodeWhole b).sign = signField b := by decide

end Machine

end Sys2Proof
end

