-- ==== Sys2Proof/Laws/PerInstr.lean ====
section
/-! SUPPORT. Statements made per constructor of Instr: the round trip of its word, and the row of the opcode table that covers
its word. -/

namespace Sys2Proof.Laws.RoundTrip

/-- A well-formed instruction's word decodes to it (R69). -/
def Statement (i : Instr) : Prop := i.WellFormed → decode (encode i) = i

theorem decInf (sgn : Bit) : Statement (.decInf sgn) := fun _ => by
  simp [encode, decode_assemble, Config.specialExponent]

theorem decNan (sgn : Bit) (m : Mantissa) : Statement (.decNan sgn m) := fun h => by
  have hm : m ≠ 0#3 := by simpa [Instr.WellFormed, Instr.wf] using h
  simp [encode, decode_assemble, Config.specialExponent, hm]

theorem decSub (sgn : Bit) (m : Mantissa) : Statement (.decSub sgn m) := fun _ => by
  simp [encode, decode_assemble, Config.specialExponent]

theorem decNorm (sgn : Bit) (e : Exponent) (m : Mantissa) : Statement (.decNorm sgn e m) := fun h => by
  have he : e ≠ 0#4 ∧ e ≠ 15#4 := by simpa [Instr.WellFormed, Instr.wf] using h
  simp [encode, decode_assemble, Config.specialExponent, he.1, he.2]

end Sys2Proof.Laws.RoundTrip

namespace Sys2Proof.Laws.TableRow

/-- The rows whose `match_set` covers a well-formed instruction's word are the one row of its class (R69). -/
def Statement (i : Instr) : Prop := i.WellFormed → classesByMatchSet (encode i) = [i.cls]

theorem decInf (sgn : Bit) : Statement (.decInf sgn) := by
  unfold Statement; revert sgn; decide

theorem decNan (sgn : Bit) (m : Mantissa) : Statement (.decNan sgn m) := by
  unfold Statement; revert sgn m; decide

theorem decSub (sgn : Bit) (m : Mantissa) : Statement (.decSub sgn m) := by
  unfold Statement; revert sgn m; decide

theorem decNorm (sgn : Bit) (e : Exponent) (m : Mantissa) : Statement (.decNorm sgn e m) := by
  unfold Statement; revert sgn e m; decide

end Sys2Proof.Laws.TableRow
end

