-- ==== Sys2Proof/Laws/Step.lean ====
section
/-! SUPPORT. The step, read off the first stimulus, and the rule that packs induction over runs once. -/

namespace Sys2Proof.Machine

/-- What the block does with a settled word: it drives the decode, whatever state it is given. -/
theorem runDecode_eq :
    (fun (b : Byte) => exec (decode b)) = fun b s => .next (s.driveOutputs (decodeWhole b)) := by
  funext b s; exact exec_decode b s

/-- `step` is `stepAt` at the open delay (R10). -/
theorem step_eq (s : State) : step s = stepAt Config.tPd s := rfl

/-- One more step of a run of any machine, where the step goes on. -/
theorem run_succ_of_next {M : Host.Core} {n : Nat} {s t : M.State} (h : M.step s = .next t) :
    M.run (n + 1) s = M.run n t := by
  rw [Host.Core.run, h]

theorem runAt_zero (tPd : Nat) (s : State) : runAt tPd 0 s = .next s := rfl

/-- A run goes on as long as its steps do. -/
theorem runAt_succ_of_next {tPd n : Nat} {s t : State} (h : stepAt tPd s = .next t) :
    runAt tPd (n + 1) s = runAt tPd n t :=
  run_succ_of_next (M := coreAt tPd) h

/-- An instance steps among others as it does alone. -/
theorem stepInstance_of_next {delay : Nat → Nat} {k : Nat} {ss : List State} {s t : State} (hs : ss[k]? = some s)
    (ht : stepAt (delay k) s = .next t) : stepInstance delay k ss = .next (ss.set k t) := by
  simp [stepInstance, hs, ht]

/-- An instance stops among others as it does alone. -/
theorem stepInstance_of_fault {delay : Nat → Nat} {k : Nat} {ss : List State} {s : State} {f : Fault}
    (hs : ss[k]? = some s) (ht : stepAt (delay k) s = .fault f) : stepInstance delay k ss = .fault f := by
  simp [stepInstance, hs, ht]

/-- Induction over runs: what every step from a good state keeps, and lets go on, every run keeps, and lets go on. -/
theorem runAt_of_step {tPd : Nat} {Good : State → Prop}
    (h : ∀ s, Good s → ∃ t, stepAt tPd s = .next t ∧ Good t) (n : Nat) :
    ∀ s, Good s → ∃ t, runAt tPd n s = .next t ∧ Good t := by
  induction n with
  | zero => exact fun s hs => ⟨s, rfl, hs⟩
  | succ n ih =>
    intro s hs
    obtain ⟨t, ht, hg⟩ := h s hs
    simpa only [runAt_succ_of_next ht] using ih t hg

end Sys2Proof.Machine
end

