-- ==== Sys2Proof/Tests/Slice0.lean ====
section
/-! SUPPORT. The model's own tests. Expected results are the spec's: 95_test_vectors.md (worked examples L1-n, vectors Vn, the
table of section 2.3) and the patterns of R69. -/

namespace Sys2Proof.Machine.Tests

/-- Reset with stimuli waiting: power is stable, nothing is driven. -/
def waiting (p : List Stimulus) : State := State.reset.withPending p

/-- A block settled on the decode of `b`, with stimuli waiting. -/
def settledOn (b : Byte) (p : List Stimulus) : State :=
  (((State.reset.changeInput (.driven b)).withPending p).markSettled).driveOutputs (decodeWhole b)

/-- The bundle a step from reset with `DECODE b` waiting leaves on the ports. -/
def bundleAfter (b : Byte) : Option Bundle := (nextOf (step (waiting [.decode b]))).map fun t => t.out.bundle

/-! ### WellFormed refuses what the table's constraints refuse (R69) -/

theorem test_wf_refuses_nan_with_zero_mantissa : ¬ (Instr.decNan 0 0).WellFormed := by decide
theorem test_wf_refuses_norm_with_zero_exponent : ¬ (Instr.decNorm 1 0 5).WellFormed := by decide
theorem test_wf_refuses_norm_with_special_exponent : ¬ (Instr.decNorm 0 15 1).WellFormed := by decide
theorem test_wf_accepts_the_boundaries :
    (Instr.decInf 1).WellFormed ∧ (Instr.decNan 0 1).WellFormed ∧ (Instr.decSub 0 0).WellFormed ∧
      (Instr.decNorm 0 1 0).WellFormed ∧ (Instr.decNorm 1 14 7).WellFormed := by decide

/-! ### Decoding, words written out from the patterns of R69 -/

-- s1111000
theorem test_decode_inf : decode 0b01111000 = .decInf 0 ∧ decode 0b11111000 = .decInf 1 := by decide
-- s1111mmm
theorem test_decode_nan : decode 0b01111001 = .decNan 0 1 ∧ decode 0b11111100 = .decNan 1 4 := by decide
-- s0000mmm
theorem test_decode_sub : decode 0b00000110 = .decSub 0 6 ∧ decode 0b10000000 = .decSub 1 0 := by decide
-- seeeemmm
theorem test_decode_norm : decode 0b00001011 = .decNorm 0 1 3 ∧ decode 0b11110001 = .decNorm 1 14 1 := by decide
theorem test_encode_norm : encode (.decNorm 1 0b1000 0b100) = 0xC4 := by decide
theorem test_table_word : decodeTableWord 8 0x79 = some (.decNan 0 1) ∧ decodeTableWord 16 0x79 = none := by decide
-- R121: a number wider than the port is turned away, not masked
theorem test_out_of_range : decodeWord 0x178 = .error .outOfRange := by decide

/-! ### One step from reset (95_test_vectors.md sections 1 and 2.1) -/

-- V1, V2
theorem test_inf_bundles : bundleAfter 0x78 = some 0x200 ∧ bundleAfter 0xF8 = some 0x300 := by decide
-- V3, V6, V7
theorem test_nan_bundles :
    bundleAfter 0x79 = some 0x400 ∧ bundleAfter 0xFF = some 0x400 ∧ bundleAfter 0x7C = some 0x400 := by decide
-- L1-2, L1-3, V10, V13
theorem test_sub_bundles :
    bundleAfter 0x00 = some 0x0A0 ∧ bundleAfter 0x80 = some 0x1A0 ∧ bundleAfter 0x01 = some 0x0A1 ∧
      bundleAfter 0x07 = some 0x0A7 := by decide
-- V15, V17, V18, V24, V25
theorem test_norm_bundles :
    bundleAfter 0x08 = some 0x0A8 ∧ bundleAfter 0x37 = some 0x0FF ∧ bundleAfter 0x38 = some 0x008 ∧
      bundleAfter 0x77 = some 0x07F ∧ bundleAfter 0xF7 = some 0x17F := by decide
-- P5, step 1: 0x55 is +13, 0xC4 is -3
theorem test_values_of_p5 : (decodeWhole 0x55).value = 13 ∧ (decodeWhole 0xC4).value = -3 := by decide +kernel
-- C1: 0x08 is 2^-6, not 1.0; L1-9: 0x01 is 2^-9
theorem test_smallest_values :
    (decodeWhole 0x08).abs = .ok (.finite 0 (1 / 64)) ∧ (decodeWhole 0x01).abs = .ok (.finite 0 (1 / 512)) := by
  decide +kernel

/-- value × 2^9 of the inputs 0x00 to 0x77: the n of the `result` column of section 2.3. -/
def positiveImages : List Int :=
  [0, 1, 2, 3, 4, 5, 6, 7, 8, 9, 10, 11, 12, 13, 14, 15] ++
  [16, 18, 20, 22, 24, 26, 28, 30, 32, 36, 40, 44, 48, 52, 56, 60] ++
  [64, 72, 80, 88, 96, 104, 112, 120, 128, 144, 160, 176, 192, 208, 224, 240] ++
  [256, 288, 320, 352, 384, 416, 448, 480, 512, 576, 640, 704, 768, 832, 896, 960] ++
  [1024, 1152, 1280, 1408, 1536, 1664, 1792, 1920, 2048, 2304, 2560, 2816, 3072, 3328, 3584, 3840] ++
  [4096, 4608, 5120, 5632, 6144, 6656, 7168, 7680, 8192, 9216, 10240, 11264, 12288, 13312, 14336, 15360] ++
  [16384, 18432, 20480, 22528, 24576, 26624, 28672, 30720, 32768, 36864, 40960, 45056, 49152, 53248, 57344, 61440] ++
  [65536, 73728, 81920, 90112, 98304, 106496, 114688, 122880]

theorem test_images_of_positive_inputs :
    ((List.range 120).map fun n => (decodeWhole (BitVec.ofNat 8 n)).integerImage) = positiveImages := by decide +kernel

/-! ### Settling, faults, instances -/

-- P4: the result depends on the present input only
theorem test_no_memory_between_inputs :
    (nextOf (step (settledOn 0x80 [.decode 0x05]))).map (fun t => t.out.bundle) = some 0x0A5 := by decide
-- R44: reading has no side effect
theorem test_sample_keeps_the_outputs :
    (nextOf (step (settledOn 0x38 [.sample]))).map (fun t => t.out.bundle) = some 0x008 := by decide
-- R34: 2'b11 read from a settled block
theorem test_sample_of_undefined_kind :
    step ((settledOn 0x38 [.sample]).driveOutputs ⟨0b11, 0, 0, 0⟩) = .fault .undefinedKind := rfl
-- P5: the other instance is left alone
theorem test_instances :
    (nextOf (stepInstance (fun k => 5 + k) 1 [waiting [.decode 0x55], waiting [.decode 0xC4]])).map
      (fun ts => ts.map fun t => (t.input, t.pending)) =
    some [(.invalid, [.decode 0x55]), (.driven 0xC4, [])] := by decide
theorem test_no_such_instance : stepInstance (fun _ => 5) 2 [waiting []] = .refused .noSuchInstance := rfl
-- the word a host places is run by the next step
theorem test_fetch_word : (nextOf (step (State.reset.withFetchWord 8 0x3C))).map (fun t => t.out.bundle) = some 0x00C := by
  decide

/-! ### A witness for the hypotheses of each statement -/

theorem witness_DecodeOfEncodeIsTheInstruction : (Instr.decNorm 1 14 7).WellFormed := by decide
theorem witness_EveryByteIsTheWordOfOneInstruction :
    (Instr.decNan 1 7).WellFormed ∧ encode (.decNan 1 7) = 0xFF := by decide
theorem witness_AnyTestOrderGivesTheSameClass :
    ([.norm, .nan, .inf, .sub] : List DecClass).Perm [.inf, .nan, .sub, .norm] := by decide
theorem witness_NumberOutsideThePortIsTurnedAway : 256 ≤ 256 ∧ 255 < 256 := by decide
theorem witness_classes :
    (decode 0xF8).cls = .inf ∧ (decode 0xF9).cls = .nan ∧ (decode 0x87).cls = .sub ∧ (decode 0x88).cls = .norm := by
  decide
theorem witness_NormalClassDrivesExactValue :
    (Instr.decNorm 0 1 0).WellFormed ∧ (Instr.decNorm 0 7 0).WellFormed ∧ (Instr.decNorm 1 14 7).WellFormed := by decide
theorem witness_OutputPortsBySourceOfTheirBits :
    (∃ t, exec (decode 0x79) (waiting []) = .next t ∧ t.out.kind = 0b10#2) ∧
    (∃ t, exec (decode 0x78) (waiting []) = .next t ∧ t.out.kind ≠ 0b10#2 ∧ t.out.kind ≠ 0b00#2) ∧
    ∃ t, exec (decode 0x77) (waiting []) = .next t ∧ t.out.kind = 0b00#2 :=
  ⟨⟨_, rfl, rfl⟩, ⟨_, rfl, by decide, by decide⟩, ⟨_, rfl, rfl⟩⟩
theorem witness_TwosComplementRoundTrips : (-8 : Int) ≤ -8 ∧ (-8 : Int) < 8 ∧ (-8 : Int) ≤ 7 ∧ (7 : Int) < 8 := by decide
theorem witness_BiasSubtractionNeverWraps :
    1 ≤ (1#4).toNat ∧ (14#4).toNat ≤ 14 ∧ decode 0x77 = .decNorm 0 14 7 := by decide
theorem witness_finite_inputs :
    exponentField 0x77 ≠ 15#4 ∧ exponentField 0x00 ≠ 15#4 ∧ (14#4 : Exponent) ≠ 15#4 := by decide
theorem witness_AbstractionReadsOnlyTheTaggedCase :
    (decodeWhole 0x00).kind = 0b00#2 ∧ (decodeWhole 0x78).kind = 0b01#2 ∧ (decodeWhole 0xFF).kind = 0b10#2 ∧
    (Outputs.mk 0b11 0 0 0).kind = 0b11#2 ∧
    ((decodeWhole 0x78).kind = (Outputs.mk 0b01 0 5 5).kind ∧ (decodeWhole 0x78).kind ≠ 0b00#2 ∧
      (decodeWhole 0x78).sign = (Outputs.mk 0b01 0 5 5).sign) := by decide
theorem witness_Presents (b : Byte) : (waiting [.decode b]).Presents b := ⟨rfl, rfl⟩
theorem witness_SignedZerosDifferOnlyInSign :
    (waiting [.decode 0x00]).Presents 0x00 ∧ (settledOn 0x77 [.decode 0x80]).Presents 0x80 := ⟨⟨rfl, rfl⟩, ⟨rfl, rfl⟩⟩
theorem witness_NaNInputsCannotBeToldApart :
    (decode 0x7D).cls = .nan ∧ (decode 0xFD).cls = .nan ∧
    (waiting [.decode 0x7D]).Presents 0x7D ∧ (waiting [.decode 0xFD]).Presents 0xFD :=
  ⟨by decide, by decide, ⟨rfl, rfl⟩, ⟨rfl, rfl⟩⟩
theorem witness_FlippingTheSignBitFlipsOnlySign :
    (waiting [.decode 0x3A]).Presents 0x3A ∧ (waiting [.decode 0xBA]).Presents (0x3A ^^^ 0x80) ∧
    (decode 0x3A).cls ≠ .nan ∧ (decode 0x7D).cls = .nan := ⟨⟨rfl, rfl⟩, ⟨rfl, rfl⟩, by decide, by decide⟩
theorem witness_ValueRisesWithTheInput :
    ((0x77 : Byte) < 0x78 ∧ (0x78 : Byte) ≤ 0x78) ∧ ((0x80 : Byte) ≤ 0x80 ∧ (0x80 : Byte) < 0xF7 ∧ (0xF7 : Byte) ≤ 0xF7) ∧
    ((0x76 : Byte) < 0x77 ∧ (0x77 : Byte) = 0x76 + 1) := by decide
theorem witness_ExtremesOfTheFiniteMagnitudes :
    exponentField 0x70 ≠ 15#4 ∧ (waiting [.decode 0x70]).Presents 0x70 ∧
    (waiting [.decode 0x70]).SettlesOn 5 (.finite 0 ((2 : ℚ) ^ (7 : ℤ))) :=
  ⟨by decide, ⟨rfl, rfl⟩, ⟨_, rfl, rfl, by decide +kernel⟩⟩
theorem witness_FiniteResultsAreDistinctAndCounted :
    (waiting [.decode 0x00]).SettlesOn 5 (.finite 0 0) ∧ (waiting [.decode 0x80]).SettlesOn 5 (.finite 1 0) :=
  ⟨⟨_, rfl, rfl, by decide +kernel⟩, ⟨_, rfl, rfl, by decide +kernel⟩⟩
theorem witness_StepRunsThePresentedInstruction :
    (waiting [.decode 0x55]).Presents 0x55 ∧ (Instr.decNorm 0 10 5).WellFormed ∧ 0x55 = encode (.decNorm 0 10 5) :=
  ⟨⟨rfl, rfl⟩, by decide, by decide⟩
theorem witness_StepRunsTheInstructionOnThePort :
    (Instr.decSub 1 7).WellFormed ∧ (settledOn 0x87 []).Drives (encode (.decSub 1 7)) ∧ (settledOn 0x87 []).pending = [] :=
  ⟨by decide, ⟨rfl, rfl⟩, rfl⟩
theorem witness_PlacedWordIsRunByTheNextStep : State.reset.powerStable = true ∧ 255 < 256 := by decide
/-- Not settled yet: three units after a change, with a delay of five. -/
def waitingForTpd (p : List Stimulus) : State :=
  { settledOn 0x38 p with stability := .unsettled 3 }
theorem witness_HeldInputSettlesAfterTheDelay :
    (waitingForTpd [.hold 2]).Drives 0x38 ∧ (waitingForTpd [.hold 2]).stability = .unsettled 3 ∧
    (waitingForTpd [.hold 2]).pending.head? = some (.hold 2) ∧ 5 ≤ 3 + 2 ∧
    (waitingForTpd [.hold 1]).pending.head? = some (.hold 1) ∧ 3 + 1 < 5 :=
  ⟨⟨rfl, rfl⟩, rfl, rfl, by decide, rfl, by decide⟩
theorem witness_ChangedInputUnsettlesTheOutputs :
    0 < 1 ∧ (.driven 0x39 : InputPort) ≠ (settledOn 0x38 []).input ∧
    (settledOn 0x38 [.drive (.driven 0x39)]).pending.head? = some (.drive (.driven 0x39)) := ⟨by decide, by decide, rfl⟩
theorem witness_NothingSettlesWithoutPowerAndValidInput :
    State.reset.input = .invalid ∧ State.reset.pending = [] ∧ (waiting [.hold 9]).pending.head? = some (.hold 9) ∧
    (State.reset.setPower false).powerStable = false := ⟨rfl, rfl, rfl, rfl⟩
theorem witness_PowerLossOrInvalidLevelUnsettles :
    (settledOn 0x38 [.power false]).powerStable = true ∧
    (settledOn 0x38 [.power false]).pending.head? = some (.power false) ∧
    (settledOn 0x38 [.drive .invalid]).input ≠ .invalid ∧
    (settledOn 0x38 [.drive .invalid]).pending.head? = some (.drive .invalid) := ⟨rfl, rfl, by decide, rfl⟩
theorem witness_PowerUpThenHoldSettles :
    ((waitingForTpd [.power true, .hold 5]).setPower false).powerStable = false ∧
    ((waitingForTpd [.power true, .hold 5]).setPower false).input = .driven 0x38 ∧
    ((waitingForTpd [.power true, .hold 5]).setPower false).pending = .power true :: .hold 5 :: [] ∧ 5 ≤ 5 :=
  ⟨rfl, rfl, rfl, by decide⟩
theorem witness_UnchangedInputKeepsTheOutputs :
    (settledOn 0x38 [.sample]).Consistent 5 ∧ (settledOn 0x38 [.sample]).stability = .settled ∧
    (settledOn 0x38 [.sample]).input = .driven 0x38 ∧ (settledOn 0x38 [.sample]).pending = .sample :: [] ∧
    (settledOn 0x38 []).Consistent 5 ∧ (settledOn 0x38 []).pending = [] :=
  ⟨⟨rfl, rfl⟩, rfl, rfl, rfl, ⟨rfl, rfl⟩, rfl⟩
theorem witness_ReadingTheUndefinedKindFaults :
    (settledOn 0x38 [.sample]).stability = .settled ∧ (settledOn 0x38 [.sample]).pending.head? = some .sample ∧
    (settledOn 0x38 [.sample]).out.kind ≠ 0b11#2 ∧
    ((settledOn 0x38 [.sample]).driveOutputs ⟨0b11, 0, 0, 0⟩).out.kind = 0b11#2 := ⟨rfl, rfl, by decide, rfl⟩
theorem witness_OnlyAnUndefinedKindStopsTheBlock :
    stepAt 5 ((settledOn 0x38 [.sample]).driveOutputs ⟨0b11, 0, 0, 0⟩) = .fault .undefinedKind := rfl
theorem witness_Consistent :
    State.reset.Consistent 0 ∧ (settledOn 0x38 [.hold 1]).Consistent 5 ∧ (settledOn 0x38 [.hold 1]).stability = .settled ∧
    stepAt 5 (settledOn 0x38 [.hold 1]) = .next (settledOn 0x38 []) := ⟨trivial, ⟨rfl, rfl⟩, rfl, rfl⟩
theorem witness_StimulusProgramSettlesOnEachInput :
    (waiting [.decode 0x80, .decode 0x05, .sample]).powerStable = true ∧
    (waiting [.decode 0x80, .decode 0x05, .sample]).pending = stimulusProgram ([0x80] ++ [0x05]) ++ [.sample] :=
  ⟨rfl, rfl⟩
theorem witness_StimulusProgramIgnoresTheDelay : (waiting [.decode 0x80]).pending = stimulusProgram [0x80] := rfl
theorem witness_LongEnoughPeriodSamplesTheDecode :
    Consumer.periodOk 5 2 7 ∧ (waiting [.drive (.driven 0x38), .hold (7 - 2), .sample]).powerStable = true ∧
    (waiting [.drive (.driven 0x38), .hold (7 - 2), .sample]).pending =
      .drive (.driven 0x38) :: .hold (7 - 2) :: .sample :: [] := ⟨by decide, rfl, rfl⟩
theorem witness_instances :
    [waiting [.decode 0x55], waiting [.decode 0xC4]][1]? = some (waiting [.decode 0xC4]) ∧
    (∃ t, stepAt 6 (waiting [.decode 0xC4]) = .next t) ∧ (1 : Nat) ≠ 0 ∧
    0 < [waiting [.decode 0x55], waiting [.decode 0xC4]].length ∧
    1 < [waiting [.decode 0x55], waiting [.decode 0xC4]].length := ⟨rfl, ⟨_, rfl⟩, by decide, by decide, by decide⟩

/-- Two consistent states, the block's and the table's or the gates', that both come to be settled on the same input. -/
theorem witness_GatesAndTableAgreeAtSettledMoments :
    (waiting [.decode 0x55]).Consistent 5 ∧ (settledOn 0x77 [.decode 0x55]).Consistent 9 ∧
    (∃ t u v, runAt 5 1 (waiting [.decode 0x55]) = .next t ∧ gateRunAt 9 1 (settledOn 0x77 [.decode 0x55]) = .next u ∧
      tableRunAt 9 1 (settledOn 0x77 [.decode 0x55]) = .next v ∧ t.stability = .settled ∧ u.stability = .settled ∧
      v.stability = .settled ∧ t.input = u.input ∧ t.input = v.input) ∧
    (waiting [.decode 0x55]).Presents 0x55 ∧ (settledOn 0x77 [.decode 0x55]).Presents 0x55 :=
  ⟨trivial, ⟨rfl, rfl⟩, ⟨_, _, _, rfl, rfl, rfl, rfl, rfl, rfl, rfl, rfl⟩, ⟨rfl, rfl⟩, ⟨rfl, rfl⟩⟩

end Sys2Proof.Machine.Tests
end

section
/-! SUPPORT. The two's complement functions of R13 are the library's reading of a bit vector as an integer. -/

namespace Sys2Proof.Machine

/-- sval_4 is the library's signed reading of a pattern. -/
theorem sval4_eq_toInt (p : BitVec 4) : sval4 p = p.toInt := by
  rw [BitVec.toInt_eq_msb_cond, BitVec.msb_eq_getLsbD_last]
  rfl

/-- sval_4 undoes twos_4 on the integers that four bits hold. -/
theorem sval4_twos4 {k : ℤ} (hlo : -8 ≤ k) (hhi : k < 8) : sval4 (twos4 k) = k := by
  rw [sval4_eq_toInt]
  exact BitVec.toInt_ofInt_eq_self (by decide) hlo hhi

/-- The pattern of k is k modulo 16. -/
theorem toNat_twos4 (k : ℤ) : ((twos4 k).toNat : ℤ) = k % 16 := by
  rw [twos4, BitVec.toNat_ofInt]
  exact Int.toNat_of_nonneg (Int.emod_nonneg k (by decide))

/-- twos_4 undoes sval_4 on every pattern. -/
@[simp] theorem twos4_sval4 (p : BitVec 4) : twos4 (sval4 p) = p := by
  rw [sval4_eq_toInt]
  exact BitVec.ofInt_toInt

theorem neg_eight_le_sval4 (p : BitVec 4) : -8 ≤ sval4 p := by
  rw [sval4_eq_toInt]
  exact BitVec.le_toInt p

theorem sval4_lt_eight (p : BitVec 4) : sval4 p < 8 := by
  rw [sval4_eq_toInt]
  exact BitVec.toInt_lt

end Sys2Proof.Machine
end

section
/-! SUPPORT. What `elapse` does in each of its cases, and what a step does with each kind of stimulus at the head of the
queue: one equation each, so that no proof unfolds `elapse` or `stepWith`. -/

namespace Sys2Proof.Machine

/-- A change of the input, as the whole state it leaves (R10). -/
theorem State.changeInput_of_ne {s : State} {p : InputPort} (h : p ≠ s.input) :
    s.changeInput p = { s with input := p, stability := .unsettled 0 } := if_neg h

section Elapse

variable {tPd t held : Nat} {s : State} {b : Byte} (run : Byte → State → Host.Outcome State Fault Refusal)

/-- Held for T_pd by now, the block settles (R80). -/
theorem elapse_of_le (hb : s.settlingByte = some b) (hs : s.stability = .unsettled held) (h : tPd ≤ held + t) :
    elapse tPd run t s = run b s.markSettled := by
  simp only [elapse, hb, hs, if_pos h]

/-- Not held for T_pd yet, the block shows any value (R144). -/
theorem elapse_of_lt (hb : s.settlingByte = some b) (hs : s.stability = .unsettled held) (h : held + t < tPd) :
    elapse tPd run t s = .next (s.markUnsettled (held + t)) := by
  simp only [elapse, hb, hs, if_neg (Nat.not_le.2 h)]

/-- With nothing to settle on, no time settles the block (R140, R145). -/
theorem elapse_of_settlingByte_eq_none (hb : s.settlingByte = none) :
    elapse tPd run t s = .next (s.markUnsettled 0) := by
  simp only [elapse, hb]

/-- Right after a change no time has counted yet, so a block with a positive delay is unsettled, whatever is on its port. -/
theorem elapse_zero_of_unsettled_zero (htPd : 0 < tPd) (hs : s.stability = .unsettled 0) :
    elapse tPd run 0 s = .next (s.markUnsettled 0) := by
  cases hb : s.settlingByte with
  | some b => exact elapse_of_lt run hb hs htPd
  | none => exact elapse_of_settlingByte_eq_none run hb

end Elapse

section Step

variable (tPd : Nat) {s : State}

theorem stepAt_of_pending_nil (h : s.pending = []) :
    stepAt tPd s = settle (fun b => exec (decode b)) s := by
  simp only [stepAt, stepWith, h]

theorem stepAt_of_pending_decode {b : Byte} {rest : List Stimulus} (h : s.pending = .decode b :: rest) :
    stepAt tPd s = settle (fun b => exec (decode b)) ((s.withPending rest).changeInput (.driven b)) := by
  simp only [stepAt, stepWith, h]

theorem stepAt_of_pending_drive {p : InputPort} {rest : List Stimulus} (h : s.pending = .drive p :: rest) :
    stepAt tPd s = elapse tPd (fun b => exec (decode b)) 0 ((s.withPending rest).changeInput p) := by
  simp only [stepAt, stepWith, h]

theorem stepAt_of_pending_hold {t : Nat} {rest : List Stimulus} (h : s.pending = .hold t :: rest) :
    stepAt tPd s = elapse tPd (fun b => exec (decode b)) t (s.withPending rest) := by
  simp only [stepAt, stepWith, h]

end Step

/-- Waiting for a settled moment always goes on, and takes no stimulus. -/
theorem settle_next_pending (s : State) :
    ∃ t, settle (fun b => exec (decode b)) s = .next t ∧ t.pending = s.pending := by
  rcases settle_cases (fun b => exec (decode b)) s with ⟨b, -, h⟩ | ⟨-, h⟩
  · exact ⟨_, h.trans (exec_decode b _), rfl⟩
  · exact ⟨_, h, rfl⟩

/-- A step of a stimulus program leaves the rest of the program, and comes to the same state under every delay: waiting until
the outputs settle asks for no time. -/
theorem stepAt_of_stimulusProgram {s : State} {bs : List Byte} (h : s.pending = stimulusProgram bs) :
    ∃ t, (∀ tPd, stepAt tPd s = .next t) ∧ t.pending = stimulusProgram bs.tail := by
  cases bs with
  | nil =>
    obtain ⟨t, ht, hp⟩ := settle_next_pending s
    exact ⟨t, fun tPd => (stepAt_of_pending_nil tPd h).trans ht, hp.trans h⟩
  | cons b bs =>
    obtain ⟨t, ht, hp⟩ :=
      settle_next_pending ((s.withPending (stimulusProgram bs)).changeInput (.driven b))
    exact ⟨t, fun tPd => (stepAt_of_pending_decode tPd h).trans ht, by simpa using hp⟩

end Sys2Proof.Machine
end

section
/-! The obligations on the scope of the model (00_scope.md). -/

namespace Sys2Proof.Machine

/-- Settles O39: the time held so far and the time held now are together at least T_pd, or they are not. -/
theorem heldInputSettlesAfterTheDelay : Obligations.HeldInputSettlesAfterTheDelay := by
  intro tPd held t s b hdrives hheld hhead
  have hbyte : (s.withPending s.pending.tail).settlingByte = some b := (State.settlingByte_eq_some _ b).2 hdrives
  have hpending : s.pending = .hold t :: s.pending.tail := List.eq_cons_of_mem_head? hhead
  rw [stepAt_of_pending_hold tPd hpending]
  constructor
  · intro hlong
    rw [elapse_of_le _ hbyte hheld hlong, exec_decode]
    rfl
  · intro hshort
    rw [elapse_of_lt _ hbyte hheld hshort]
    rfl

/-- Settles O40: the change starts the time to settle again, and with a positive delay no time is not enough. -/
theorem changedInputUnsettlesTheOutputs : Obligations.ChangedInputUnsettlesTheOutputs := by
  intro tPd s p htPd hne hhead
  have hpending : s.pending = .drive p :: s.pending.tail := List.eq_cons_of_mem_head? hhead
  have hchange := State.changeInput_of_ne (s := s.withPending s.pending.tail) hne
  rw [stepAt_of_pending_drive tPd hpending, hchange, elapse_zero_of_unsettled_zero _ htPd rfl]
  rfl

/-- Settles O52, by induction on the number of steps: each step of a stimulus program comes to one state, whatever the delay,
and leaves a stimulus program. -/
theorem stimulusProgramIgnoresTheDelay : Obligations.StimulusProgramIgnoresTheDelay := by
  intro tPd tPd' n
  induction n with
  | zero => exact fun _ _ _ => rfl
  | succ n ih =>
    intro s bs hs
    obtain ⟨t, ht, hp⟩ := stepAt_of_stimulusProgram hs
    rw [runAt_succ_of_next (ht tPd), runAt_succ_of_next (ht tPd')]
    exact ih t bs.tail hp

/-- Settles O18: twos_4 and sval_4 are the library's `BitVec.ofInt` and `BitVec.toInt` at width 4. -/
theorem twosComplementRoundTrips : Obligations.TwosComplementRoundTrips :=
  ⟨fun k hlo hhi => ⟨sval4_twos4 hlo hhi, toNat_twos4 k⟩,
    fun p => ⟨twos4_sval4 p, neg_eight_le_sval4 p, sval4_lt_eight p⟩⟩

end Sys2Proof.Machine
end

section
/-! SUPPORT. What the block drives for each kind of input, one equation for each, with the integer and the rational facts about
the ports of a finite result. -/

namespace Sys2Proof.Machine

/-! ### The whole operation by the kind of its result (R28, R82) -/

section Kinds

variable {b : Byte}

/-- Both finite classes at once: they differ in the effective exponent and in the implicit bit only (R85, R86). -/
theorem decodeWhole_of_finite (he : exponentField b ≠ 15#4) :
    decodeWhole b = ⟨0b00#2, signField b, twos4 (finiteExponent b),
      significand (if exponentField b = 0#4 then 0#1 else 1#1) (mantissaField b)⟩ := by
  by_cases h0 : exponentField b = 0#4 <;> simp [decodeWhole, finiteExponent, he, h0]

theorem decodeWhole_of_infinity (he : exponentField b = 15#4) (hm : mantissaField b = 0#3) :
    decodeWhole b = ⟨0b01#2, signField b, 0b0000#4, 0b0000#4⟩ := by
  simp [decodeWhole, he, hm]

theorem decodeWhole_of_nan (he : exponentField b = 15#4) (hm : mantissaField b ≠ 0#3) :
    decodeWhole b = ⟨0b10#2, 0b0#1, 0b0000#4, 0b0000#4⟩ := by
  simp [decodeWhole, he, hm]

/-- An input is finite, infinite or a NaN, by its exponent and its mantissa field (R65). -/
theorem finite_or_infinity_or_nan (b : Byte) :
    exponentField b ≠ 15#4 ∨ (exponentField b = 15#4 ∧ mantissaField b = 0#3) ∨
      (exponentField b = 15#4 ∧ mantissaField b ≠ 0#3) := by
  tauto

theorem decodeWhole_kind_eq_finite_iff : (decodeWhole b).kind = 0b00#2 ↔ exponentField b ≠ 15#4 := by
  obtain he | ⟨he, hm⟩ | ⟨he, hm⟩ := finite_or_infinity_or_nan b
  · simp [decodeWhole_of_finite he, he]
  · simp [decodeWhole_of_infinity he hm, he]
  · simp [decodeWhole_of_nan he hm, he]

theorem decodeWhole_kind_eq_infinity_iff :
    (decodeWhole b).kind = 0b01#2 ↔ exponentField b = 15#4 ∧ mantissaField b = 0#3 := by
  obtain he | ⟨he, hm⟩ | ⟨he, hm⟩ := finite_or_infinity_or_nan b
  · simp [decodeWhole_of_finite he, he]
  · simp [decodeWhole_of_infinity he hm, he, hm]
  · simp [decodeWhole_of_nan he hm, hm]

theorem decodeWhole_kind_eq_nan_iff :
    (decodeWhole b).kind = 0b10#2 ↔ exponentField b = 15#4 ∧ mantissaField b ≠ 0#3 := by
  obtain he | ⟨he, hm⟩ | ⟨he, hm⟩ := finite_or_infinity_or_nan b
  · simp [decodeWhole_of_finite he, he]
  · simp [decodeWhole_of_infinity he hm, hm]
  · simp [decodeWhole_of_nan he hm, he, hm]

/-- The sign of the one NaN is 0, whatever the input's (R29, R92). -/
theorem decodeWhole_sign_of_nan (h : (decodeWhole b).kind = 0b10#2) : (decodeWhole b).sign = 0#1 := by
  obtain ⟨he, hm⟩ := decodeWhole_kind_eq_nan_iff.1 h
  rw [decodeWhole_of_nan he hm]

/-- Every other result has the input's sign (R29). -/
theorem decodeWhole_sign_of_ne_nan (h : (decodeWhole b).kind ≠ 0b10#2) : (decodeWhole b).sign = signField b := by
  obtain he | ⟨he, hm⟩ | hnan := finite_or_infinity_or_nan b
  · rw [decodeWhole_of_finite he]
  · rw [decodeWhole_of_infinity he hm]
  · exact absurd (decodeWhole_kind_eq_nan_iff.2 hnan) h

/-- A special result drives zeros on `exp_eff` and `sig` (R30, R31). -/
theorem decodeWhole_of_ne_finite (h : (decodeWhole b).kind ≠ 0b00#2) :
    (decodeWhole b).expEff = 0b0000#4 ∧ (decodeWhole b).sig = 0b0000#4 := by
  obtain he | ⟨he, hm⟩ | ⟨he, hm⟩ := finite_or_infinity_or_nan b
  · exact absurd (decodeWhole_kind_eq_finite_iff.2 he) h
  · rw [decodeWhole_of_infinity he hm]
    exact ⟨rfl, rfl⟩
  · rw [decodeWhole_of_nan he hm]
    exact ⟨rfl, rfl⟩

end Kinds

/-! ### The exponent and the significand of a finite result (R30, R31, R87, R88) -/

/-- A finite exponent field lies between 0 and 14. -/
theorem toNat_le_fourteen_iff (e : Exponent) : e.toNat ≤ 14 ↔ e ≠ 15#4 := by
  have hlt : e.toNat < 16 := e.isLt
  have h15 : e = 15#4 ↔ e.toNat = 15 := BitVec.toNat_inj.symm
  rw [ne_eq, h15]
  omega

/-- The effective exponent of a finite input lies between EMIN and EMAX, so four bits hold it (R30, R87). -/
theorem finiteExponent_mem_range {b : Byte} (he : exponentField b ≠ 15#4) :
    -6 ≤ finiteExponent b ∧ finiteExponent b ≤ 7 := by
  have hle : (exponentField b).toNat ≤ 14 := (toNat_le_fourteen_iff _).2 he
  unfold finiteExponent
  split_ifs with h0
  · decide
  · have hne : (exponentField b).toNat ≠ 0 := fun h => h0 (BitVec.eq_of_toNat_eq h)
    simp only [effectiveExponent, Config.bias]
    omega

theorem sval4_twos4_finiteExponent {b : Byte} (he : exponentField b ≠ 15#4) :
    sval4 (twos4 (finiteExponent b)) = finiteExponent b := by
  obtain ⟨hlo, hhi⟩ := finiteExponent_mem_range he
  exact sval4_twos4 (by omega) (by omega)

/-- The implicit bit stands above the three mantissa bits, so it weighs 8 (R88). -/
theorem toNat_significand (implicit : Bit) (m : Mantissa) :
    (significand implicit m).toNat = 8 * implicit.toNat + m.toNat := by
  rw [significand, BitVec.toNat_append, ← Nat.shiftLeft_add_eq_or_of_lt m.isLt, Nat.shiftLeft_eq, Nat.mul_comm]

/-- The significand of a finite result is 8 times the source's fraction (R31, R88). -/
theorem decodeWhole_sig_eq_fraction {b : Byte} (he : exponentField b ≠ 15#4) :
    ((decodeWhole b).sig.toNat : ℚ) = 8 * fraction b := by
  rw [decodeWhole_of_finite he]
  simp only [toNat_significand, fraction]
  split_ifs
  · simp [mul_div_cancel₀]
  · simp [mul_add, mul_div_cancel₀]

/-- The magnitude of a finite result is the source's 2^(effective exponent) × fraction: the 8 in `sig` is the 2^3 that R33
takes off the exponent. -/
theorem decodeWhole_magnitude {b : Byte} (he : exponentField b ≠ 15#4) :
    (decodeWhole b).magnitude = (2 : ℚ) ^ finiteExponent b * fraction b := by
  have hexp : sval4 (decodeWhole b).expEff = finiteExponent b := by
    rw [decodeWhole_of_finite he]
    exact sval4_twos4_finiteExponent he
  rw [Outputs.magnitude, decodeWhole_sig_eq_fraction he, hexp, zpow_sub₀ two_ne_zero]
  ring

end Sys2Proof.Machine
end

section
/-! SUPPORT. What four ports stand for, by their tag, whatever drives them: the abstraction of R33, the consumer's buckets and
one-bit tests (R28, R135), and the bundle (R32). -/

namespace Sys2Proof.Machine

namespace Outputs

section Abs

variable {o : Outputs}

theorem abs_of_kind_finite (h : o.kind = 0b00#2) : o.abs = .ok (.finite o.sign o.magnitude) := if_pos h

theorem abs_of_kind_infinity (h : o.kind = 0b01#2) : o.abs = .ok (.infinity o.sign) := by simp [abs, h]

theorem abs_of_kind_nan (h : o.kind = 0b10#2) : o.abs = .ok .nan := by simp [abs, h]

/-- The four codes of the `kind` port (R28). -/
theorem kind_cases (o : Outputs) : o.kind = 0b00#2 ∨ o.kind = 0b01#2 ∨ o.kind = 0b10#2 ∨ o.kind = 0b11#2 := by
  generalize o.kind = k
  revert k
  decide

/-- Ports that stand for a result carry the tag of its case (R28, R33). -/
theorem abs_ok_cases {d : Decoded} (h : o.abs = .ok d) :
    (o.kind = 0b00#2 ∧ d = .finite o.sign o.magnitude) ∨ (o.kind = 0b01#2 ∧ d = .infinity o.sign) ∨
      (o.kind = 0b10#2 ∧ d = .nan) := by
  obtain hk | hk | hk | hk := o.kind_cases
  · exact .inl ⟨hk, Except.ok.inj (h.symm.trans (abs_of_kind_finite hk))⟩
  · exact .inr (.inl ⟨hk, Except.ok.inj (h.symm.trans (abs_of_kind_infinity hk))⟩)
  · exact .inr (.inr ⟨hk, Except.ok.inj (h.symm.trans (abs_of_kind_nan hk))⟩)
  · cases h.symm.trans ((o.abs_error_iff .undefinedKind).2 hk)

/-- A tag other than FINITE hides the exponent and the significand: equal tags and signs stand for the same (R33). -/
theorem abs_eq_of_kind_ne_finite {p : Outputs} (hkind : o.kind = p.kind) (hne : o.kind ≠ 0b00#2)
    (hsign : o.sign = p.sign) : o.abs = p.abs := by
  simp only [abs, ← hkind, ← hsign, if_neg hne]

/-- The bucket by `kind` alone is the case of the result (R135). -/
theorem bucket_iff_of_abs {d : Decoded} (h : o.abs = .ok d) :
    (o.bucket = some .finite ↔ ∃ neg mag, d = .finite neg mag) ∧
      (o.bucket = some .infinite ↔ ∃ neg, d = .infinity neg) ∧ (o.bucket = some .nan ↔ d = .nan) := by
  obtain ⟨hk, rfl⟩ | ⟨hk, rfl⟩ | ⟨hk, rfl⟩ := abs_ok_cases h <;> simp [bucket, hk]

/-- `kind[1]` tells the NaN from every other result (R28). -/
theorem isNaN_iff_of_abs {d : Decoded} (h : o.abs = .ok d) : o.isNaN = true ↔ d = .nan := by
  obtain ⟨hk, rfl⟩ | ⟨hk, rfl⟩ | ⟨hk, rfl⟩ := abs_ok_cases h <;> simp [isNaN, hk]

/-- `kind[0]` tells the infinities from every other result (R28). -/
theorem isInfinity_iff_of_abs {d : Decoded} (h : o.abs = .ok d) : o.isInfinity = true ↔ ∃ neg, d = .infinity neg := by
  obtain ⟨hk, rfl⟩ | ⟨hk, rfl⟩ | ⟨hk, rfl⟩ := abs_ok_cases h <;> simp [isInfinity, hk]

end Abs

/-! ### The bundle, port by port (R32) -/

variable (o : Outputs)

/-- Above `sig` a field of the bundle is a field of the other three ports. -/
theorem extractLsb'_bundle_of_le {start : ℕ} (len : ℕ) (h : 4 ≤ start) :
    o.bundle.extractLsb' start len = (o.kind ++ o.sign ++ o.expEff).extractLsb' (start - 4) len :=
  BitVec.extractLsb'_append_eq_of_le h

theorem extract_kind_bundle : o.bundle.extractLsb' 9 2 = o.kind := by
  rw [o.extractLsb'_bundle_of_le 2 (by decide), BitVec.extractLsb'_append_eq_of_le (by decide)]
  exact BitVec.extractLsb'_append_eq_left

theorem extract_sign_bundle : o.bundle.extractLsb' 8 1 = o.sign := by
  rw [o.extractLsb'_bundle_of_le 1 (by decide), BitVec.extractLsb'_append_eq_of_le (by decide)]
  exact BitVec.extractLsb'_append_eq_right

theorem extract_expEff_bundle : o.bundle.extractLsb' 4 4 = o.expEff := by
  rw [o.extractLsb'_bundle_of_le 4 (by decide)]
  exact BitVec.extractLsb'_append_eq_right

theorem extract_sig_bundle : o.bundle.extractLsb' 0 4 = o.sig :=
  BitVec.extractLsb'_append_eq_right

/-- The ports of a bundle are the ports it was made of. -/
theorem ofBundle_bundle : ofBundle o.bundle = o :=
  Outputs.ext o.extract_kind_bundle o.extract_sign_bundle o.extract_expEff_bundle o.extract_sig_bundle

/-- The four fields of an 11-bit word stand side by side and leave no bit out. -/
theorem bundle_ofBundle (w : Bundle) : (ofBundle w).bundle = w := by
  have hkindSign : w.extractLsb' 9 2 ++ w.extractLsb' 8 1 = w.extractLsb' 8 3 :=
    BitVec.extractLsb'_append_extractLsb'_eq_extractLsb' rfl
  have hupper : w.extractLsb' 8 3 ++ w.extractLsb' 4 4 = w.extractLsb' 4 7 :=
    BitVec.extractLsb'_append_extractLsb'_eq_extractLsb' rfl
  calc (ofBundle w).bundle
      = w.extractLsb' 9 2 ++ w.extractLsb' 8 1 ++ w.extractLsb' 4 4 ++ w.extractLsb' 0 4 := rfl
    _ = w.extractLsb' 4 7 ++ w.extractLsb' 0 4 := by rw [hkindSign, hupper]
    _ = w := BitVec.extractLsb'_append_extractLsb'

end Outputs

/-- A bit of a field is the bit of the word at the field's place. -/
theorem getLsbD_of_extractLsb'_eq {w start len k : ℕ} {x : BitVec w} {p : BitVec len}
    (h : x.extractLsb' start len = p) (hk : k < len) : x.getLsbD (start + k) = p.getLsbD k := by
  simp [← h, hk]

end Sys2Proof.Machine
end

section
/-! SUPPORT. The one way a step can stop (R34, R120): a `sample` of a settled block whose `kind` is 2'b11. -/

namespace Sys2Proof.Machine

section Step

variable (tPd : Nat) {s : State}

theorem stepAt_of_pending_power {stable : Bool} {rest : List Stimulus} (h : s.pending = .power stable :: rest) :
    stepAt tPd s = elapse tPd (fun b => exec (decode b)) 0 ((s.withPending rest).setPower stable) := by
  simp only [stepAt, stepWith, h]

theorem stepAt_of_pending_sample {rest : List Stimulus} (h : s.pending = .sample :: rest) :
    stepAt tPd s = sampleOutputs (s.withPending rest) := by
  simp only [stepAt, stepWith, h]

end Step

section Sample

variable {s : State} (hs : s.stability = .settled)
include hs

/-- Reading a settled block whose tag has a meaning changes nothing (R44). -/
theorem sampleOutputs_of_kind_ne (hk : s.out.kind ≠ 0b11#2) : sampleOutputs s = .next s := by
  obtain ⟨held, h, -⟩ | ⟨-, -, h⟩ | ⟨-, h, -⟩ := sampleOutputs_cases s
  · cases hs.symm.trans h
  · exact h
  · exact absurd h hk

/-- Reading 2'b11 from a settled block is the fault of R34. -/
theorem sampleOutputs_of_kind_eq (hk : s.out.kind = 0b11#2) : sampleOutputs s = .fault .undefinedKind := by
  obtain ⟨held, h, -⟩ | ⟨-, h, -⟩ | ⟨-, -, h⟩ := sampleOutputs_cases s
  · cases hs.symm.trans h
  · exact absurd hk h
  · exact h

end Sample

/-- Letting time pass always goes on. -/
theorem elapse_next (tPd t : Nat) (s : State) : ∃ u, elapse tPd (fun b => exec (decode b)) t s = .next u := by
  obtain ⟨b, -, -, h⟩ | ⟨b, held, -, -, -, h⟩ | ⟨b, held, -, -, -, h⟩ | ⟨-, h⟩ :=
    elapse_cases (fun b => exec (decode b)) tPd t s
  · exact ⟨_, h.trans (exec_decode b _)⟩
  · exact ⟨_, h.trans (exec_decode b _)⟩
  · exact ⟨_, h⟩
  · exact ⟨_, h⟩

/-- Every step goes on, but for a `sample` that reads 2'b11 from a settled block (R34, R120). -/
theorem stepAt_next_or_fault (tPd : Nat) (s : State) :
    (∃ t, stepAt tPd s = .next t) ∨
      (s.stability = .settled ∧ s.pending.head? = some .sample ∧ s.out.kind = 0b11#2 ∧
        stepAt tPd s = .fault .undefinedKind) := by
  cases hp : s.pending with
  | nil =>
    obtain ⟨t, ht, -⟩ := settle_next_pending s
    exact .inl ⟨t, (stepAt_of_pending_nil tPd hp).trans ht⟩
  | cons x rest =>
    cases x with
    | decode b =>
      obtain ⟨t, ht, -⟩ := settle_next_pending ((s.withPending rest).changeInput (.driven b))
      exact .inl ⟨t, (stepAt_of_pending_decode tPd hp).trans ht⟩
    | drive p => exact .inl (stepAt_of_pending_drive tPd hp ▸ elapse_next tPd 0 _)
    | hold t => exact .inl (stepAt_of_pending_hold tPd hp ▸ elapse_next tPd t _)
    | power stable => exact .inl (stepAt_of_pending_power tPd hp ▸ elapse_next tPd 0 _)
    | sample =>
      rw [stepAt_of_pending_sample tPd hp]
      obtain ⟨held, -, h⟩ | ⟨-, -, h⟩ | ⟨hs, hk, h⟩ := sampleOutputs_cases (s.withPending rest)
      · exact .inl ⟨_, h⟩
      · exact .inl ⟨_, h⟩
      · exact .inr ⟨hs, rfl, hk, h⟩

/-- A consistent block that is settled has power, a valid input, and the decode of that input on its ports (R80). -/
theorem State.Consistent.out_of_settled {tPd : Nat} {s : State} (h : s.Consistent tPd) (hs : s.stability = .settled) :
    ∃ b, s.Drives b ∧ s.out = decodeWhole b := by
  cases hi : s.input with
  | driven b =>
    obtain ⟨hpower, hout⟩ : s.powerStable = true ∧ s.out = decodeWhole b := by
      simpa only [State.Consistent, hs, hi] using h
    exact ⟨b, ⟨hpower, hi⟩, hout⟩
  | invalid => simp only [State.Consistent, hs, hi] at h

/-- No consistent block shows 2'b11 settled (R34). -/
theorem State.Consistent.kind_ne_of_settled {tPd : Nat} {s : State} (h : s.Consistent tPd)
    (hs : s.stability = .settled) : s.out.kind ≠ 0b11#2 := by
  obtain ⟨b, -, hout⟩ := h.out_of_settled hs
  rw [hout]
  exact decodeWhole_kind_ne b

end Sys2Proof.Machine
end

section
/-! The obligations on the ports and the state of the block (10_state.md). -/

namespace Sys2Proof.Machine

/-- Settles O16: the ports of `decodeWhole`, by the kind it drives. -/
theorem outputPortsBySourceOfTheirBits : Obligations.OutputPortsBySourceOfTheirBits := by
  intro b s
  refine ⟨_, exec_decode b s, decodeWhole_sign_of_nan, decodeWhole_sign_of_ne_nan, fun hfinite => ?_,
    decodeWhole_of_ne_finite⟩
  have he : exponentField b ≠ 15#4 := decodeWhole_kind_eq_finite_iff.1 hfinite
  obtain ⟨hlo, hhi⟩ := finiteExponent_mem_range he
  have hexp : (decodeWhole b).expEff = twos4 (finiteExponent b) := by rw [decodeWhole_of_finite he]
  have hsval : sval4 (decodeWhole b).expEff = finiteExponent b := hexp ▸ sval4_twos4_finiteExponent he
  have hsig : (decodeWhole b).sig = significand (if exponentField b = 0#4 then 0#1 else 1#1) (mantissaField b) := by
    rw [decodeWhole_of_finite he]
  exact ⟨hexp, hsval, hlo, hhi, hsig, decodeWhole_sig_eq_fraction he⟩

/-- Settles O17: the code follows from the input's fields, and the consumer's tests from the code. -/
theorem kindTagsTheResult : Obligations.KindTagsTheResult := by
  intro b s
  have hne : (decodeWhole b).kind ≠ 0b11#2 := decodeWhole_kind_ne b
  obtain ⟨d, hd⟩ := (decodeWhole b).abs_ok_of_kind_ne hne
  obtain ⟨hfinite, hinfinite, hnan⟩ := Outputs.bucket_iff_of_abs hd
  exact ⟨_, d, exec_decode b s, hd, hne,
    decodeWhole_kind_eq_finite_iff.trans (toNat_le_fourteen_iff _).symm, decodeWhole_kind_eq_infinity_iff,
    decodeWhole_kind_eq_nan_iff, hfinite, hinfinite, hnan, Outputs.isNaN_iff_of_abs hd, Outputs.isInfinity_iff_of_abs hd⟩

/-- Settles O24: one equation per tag, and the magnitude of a finite input's run. -/
theorem abstractionReadsOnlyTheTaggedCase : Obligations.AbstractionReadsOnlyTheTaggedCase := by
  constructor
  · intro o p
    exact ⟨Outputs.abs_of_kind_finite, Outputs.abs_of_kind_infinity, Outputs.abs_of_kind_nan,
      o.abs_error_iff .undefinedKind, Outputs.abs_eq_of_kind_ne_finite⟩
  · intro b s he
    obtain ⟨hkind, hsign⟩ := decodeWhole_finite b he
    refine ⟨_, exec_decode b s, ?_⟩
    rw [State.driveOutputs_out, Outputs.abs_of_kind_finite hkind, hsign, decodeWhole_magnitude he]

/-- Settles O25: each port is a field of the bundle, and its bits are the bundle's bits at that place. -/
theorem bundleHoldsTheFourPorts : Obligations.BundleHoldsTheFourPorts :=
  ⟨fun o => ⟨o.ofBundle_bundle,
      getLsbD_of_extractLsb'_eq (k := 1) o.extract_kind_bundle (by decide),
      getLsbD_of_extractLsb'_eq (k := 0) o.extract_kind_bundle (by decide),
      getLsbD_of_extractLsb'_eq (k := 0) o.extract_sign_bundle (by decide),
      fun _ hk => getLsbD_of_extractLsb'_eq o.extract_expEff_bundle hk,
      fun k hk => by simpa using getLsbD_of_extractLsb'_eq o.extract_sig_bundle hk⟩,
    Outputs.bundle_ofBundle⟩

/-- Settles O45: `decodeWhole` never gives 2'b11, and a settled `sample` faults on it alone. -/
theorem readingTheUndefinedKindFaults : Obligations.ReadingTheUndefinedKindFaults := by
  constructor
  · exact fun b s => ⟨_, exec_decode b s, decodeWhole_kind_ne b⟩
  · intro tPd s hs hhead
    rw [stepAt_of_pending_sample tPd (List.eq_cons_of_mem_head? hhead)]
    have hsettled : (s.withPending s.pending.tail).stability = .settled := hs
    exact ⟨sampleOutputs_of_kind_eq hsettled, sampleOutputs_of_kind_ne hsettled⟩

/-- Settles O47: the only stop reads 2'b11 from a settled block, which no consistent block shows. -/
theorem consistentBlockNeverStops : Obligations.ConsistentBlockNeverStops := by
  intro tPd s hs
  refine ⟨hs.kind_ne_of_settled, ?_⟩
  obtain hnext | ⟨hsettled, -, hkind, -⟩ := stepAt_next_or_fault tPd s
  · exact hnext
  · exact absurd hkind (hs.kind_ne_of_settled hsettled)

/-- Settles O14: each class drives outputs made of its operands alone. -/
theorem everyClassOnlyDrivesTheOutputs : Obligations.EveryClassOnlyDrivesTheOutputs := by
  intro i
  cases i with
  | decInf sgn => exact ⟨_, execDecInf_eq sgn⟩
  | decNan sgn m => exact ⟨_, execDecNan_eq sgn m⟩
  | decSub sgn m => exact ⟨_, execDecSub_eq sgn m⟩
  | decNorm sgn e m => exact ⟨_, execDecNorm_eq sgn e m⟩

/-- Settles O49: with an invalid input and nothing settled, consistency asks for nothing. -/
theorem resetIsAnUnsettledConsistentBlock : Obligations.ResetIsAnUnsettledConsistentBlock :=
  ⟨fun _ => trivial, Stability.noConfusion, rfl, rfl, rfl⟩

end Sys2Proof.Machine
end


section
/-! SUPPORT. A settled block and what leaves it as it is; `DECODE` as one equation; and that every step keeps a block
consistent (R80): letting time pass always comes to a consistent state, so only a `sample` leans on the state before it. -/

namespace Sys2Proof.Machine

section Time

variable {tPd t : Nat} {s : State} {b : Byte} (run : Byte → State → Host.Outcome State Fault Refusal)

/-- With power and a valid input, waiting ends at the settled moment (R80). -/
theorem settle_of_settlingByte_eq_some (hb : s.settlingByte = some b) : settle run s = run b s.markSettled := by
  simp only [settle, hb]

/-- A settled block goes on decoding, however long it is held (R80). -/
theorem elapse_of_settled (hb : s.settlingByte = some b) (hs : s.stability = .settled) :
    elapse tPd run t s = run b s := by
  simp only [elapse, hb, hs]

end Time

/-! ### The settled block (R80, R100) -/

/-- Settled on `b`: power is stable, `b` is on the port, and the outputs are final and its decode (R80). -/
structure State.SettledOn (s : State) (b : Byte) : Prop where
  drives : s.Drives b
  settled : s.stability = .settled
  out_eq : s.out = decodeWhole b

/-- A consistent block that is settled is settled on the input on its port. -/
theorem State.Consistent.settledOn {tPd : Nat} {s : State} {b : Byte} (h : s.Consistent tPd)
    (hs : s.stability = .settled) (hi : s.input = .driven b) : s.SettledOn b := by
  obtain ⟨c, ⟨hpower, hc⟩, hout⟩ := h.out_of_settled hs
  obtain rfl : b = c := InputPort.driven.inj (hi.symm.trans hc)
  exact ⟨⟨hpower, hi⟩, hs, hout⟩

namespace State.SettledOn

variable {s : State} {b : Byte} (h : s.SettledOn b)
include h

theorem consistent (tPd : Nat) : s.Consistent tPd := by
  obtain ⟨⟨hpower, hi⟩, hs, hout⟩ := h
  simpa only [State.Consistent, hs, hi] using ⟨hpower, hout⟩

theorem settlingByte_eq : s.settlingByte = some b := (settlingByte_eq_some s b).2 h.drives

/-- The queue has no part in being settled. -/
theorem withPending (rest : List Stimulus) : (s.withPending rest).SettledOn b := ⟨h.drives, h.settled, h.out_eq⟩

/-- Decoding its input once more drives what is on the ports already (R100). -/
theorem exec_decode_eq : exec (decode b) s = .next s := by
  rw [exec_decode, ← h.out_eq]
  rfl

theorem markSettled_eq : s.markSettled = s := by
  rw [State.markSettled, ← h.settled]

theorem settle_eq : settle (fun b => exec (decode b)) s = .next s := by
  rw [settle_of_settlingByte_eq_some _ h.settlingByte_eq, h.markSettled_eq, h.exec_decode_eq]

theorem elapse_eq (tPd t : Nat) : elapse tPd (fun b => exec (decode b)) t s = .next s := by
  rw [elapse_of_settled _ h.settlingByte_eq h.settled, h.exec_decode_eq]

theorem sampleOutputs_eq : sampleOutputs s = .next s :=
  sampleOutputs_of_kind_ne h.settled (h.out_eq ▸ decodeWhole_kind_ne b)

end State.SettledOn

/-! ### `DECODE` (R72, R82) -/

/-- After the input is driven the block settles on it, whether the driving was a change or not (R80). -/
theorem State.markSettled_changeInput (s : State) (p : InputPort) :
    (s.changeInput p).markSettled = { s with input := p, stability := .settled } := by
  by_cases hp : p = s.input
  · subst hp
    rw [State.changeInput_same s _ rfl]
    rfl
  · rw [State.changeInput_of_ne hp]
    rfl

/-- `DECODE b` leaves the block settled on `b`, and nothing but the port, the outputs and the queue is touched. -/
theorem stepAt_of_presents (tPd : Nat) {s : State} {b : Byte} (h : s.Presents b) :
    stepAt tPd s = .next { s with
      input := .driven b, stability := .settled, pending := s.pending.tail, out := decodeWhole b } := by
  obtain ⟨hpower, hhead⟩ := h
  have hbyte : ((s.withPending s.pending.tail).changeInput (.driven b)).settlingByte = some b :=
    (State.settlingByte_eq_some _ b).2 ⟨by simpa using hpower, by simp⟩
  rw [stepAt_of_pending_decode tPd (List.eq_cons_of_mem_head? hhead), settle_of_settlingByte_eq_some _ hbyte,
    State.markSettled_changeInput, exec_decode]
  rfl

/-! ### Every step keeps a block consistent (R80) -/

/-- An unsettled block is consistent where a word it could settle on has not been held for T_pd. -/
theorem State.consistent_iff_of_unsettled {tPd held : Nat} {s : State} (hs : s.stability = .unsettled held) :
    s.Consistent tPd ↔ ∀ b, s.settlingByte = some b → held < tPd := by
  simp only [State.settlingByte_eq_some, State.Consistent, hs]
  cases hi : s.input <;> simp

/-- Letting it settle on its word leaves a block consistent. -/
theorem consistent_of_exec_decode {s u : State} {b : Byte} (tPd : Nat) (hb : s.settlingByte = some b)
    (hs : s.stability = .settled) (h : exec (decode b) s = .next u) : u.Consistent tPd := by
  obtain rfl : s.driveOutputs (decodeWhole b) = u := Host.Outcome.next.inj ((exec_decode b s).symm.trans h)
  have hsettled : (s.driveOutputs (decodeWhole b)).SettledOn b := ⟨(State.settlingByte_eq_some s b).1 hb, hs, rfl⟩
  exact hsettled.consistent tPd

/-- A moment of free values with nothing to settle on is consistent. -/
theorem State.markUnsettled_consistent {s : State} (tPd held : Nat) (h : ∀ b, s.settlingByte = some b → held < tPd) :
    (s.markUnsettled held).Consistent tPd :=
  (State.consistent_iff_of_unsettled rfl).2 h

theorem settle_keeps_consistent (tPd : Nat) {s u : State} (h : settle (fun b => exec (decode b)) s = .next u) :
    u.Consistent tPd := by
  obtain ⟨b, hb, heq⟩ | ⟨hb, heq⟩ := settle_cases (fun b => exec (decode b)) s
  · exact consistent_of_exec_decode tPd (s := s.markSettled) hb rfl (heq.symm.trans h)
  · obtain rfl := Host.Outcome.next.inj (heq.symm.trans h)
    exact State.markUnsettled_consistent tPd 0 (by simp [hb])

theorem elapse_keeps_consistent {tPd t : Nat} {s u : State}
    (h : elapse tPd (fun b => exec (decode b)) t s = .next u) : u.Consistent tPd := by
  obtain ⟨b, hb, hs, heq⟩ | ⟨b, held, hb, -, -, heq⟩ | ⟨b, held, hb, -, hlt, heq⟩ | ⟨hb, heq⟩ :=
    elapse_cases (fun b => exec (decode b)) tPd t s
  · exact consistent_of_exec_decode tPd hb hs (heq.symm.trans h)
  · exact consistent_of_exec_decode tPd (s := s.markSettled) hb rfl (heq.symm.trans h)
  · obtain rfl := Host.Outcome.next.inj (heq.symm.trans h)
    exact State.markUnsettled_consistent tPd (held + t) fun _ _ => hlt
  · obtain rfl := Host.Outcome.next.inj (heq.symm.trans h)
    exact State.markUnsettled_consistent tPd 0 (by simp [hb])

/-- Reading the outputs counts no time: the block stays as consistent as it was. -/
theorem sampleOutputs_keeps_consistent {tPd : Nat} {s u : State} (hs : s.Consistent tPd)
    (h : sampleOutputs s = .next u) : u.Consistent tPd := by
  obtain ⟨held, hu, heq⟩ | ⟨-, -, heq⟩ | ⟨-, -, heq⟩ := sampleOutputs_cases s
  · obtain rfl := Host.Outcome.next.inj (heq.symm.trans h)
    exact State.markUnsettled_consistent tPd held ((State.consistent_iff_of_unsettled hu).1 hs)
  · obtain rfl := Host.Outcome.next.inj (heq.symm.trans h)
    exact hs
  · cases heq.symm.trans h

theorem stepAt_keeps_consistent {tPd : Nat} {s t : State} (hs : s.Consistent tPd) (h : stepAt tPd s = .next t) :
    t.Consistent tPd := by
  cases hp : s.pending with
  | nil => exact settle_keeps_consistent tPd ((stepAt_of_pending_nil tPd hp).symm.trans h)
  | cons x rest =>
    cases x with
    | decode b => exact settle_keeps_consistent tPd ((stepAt_of_pending_decode tPd hp).symm.trans h)
    | drive p => exact elapse_keeps_consistent ((stepAt_of_pending_drive tPd hp).symm.trans h)
    | hold t => exact elapse_keeps_consistent ((stepAt_of_pending_hold tPd hp).symm.trans h)
    | power stable => exact elapse_keeps_consistent ((stepAt_of_pending_power tPd hp).symm.trans h)
    | sample =>
      have hrest : (s.withPending rest).Consistent tPd := hs
      exact sampleOutputs_keeps_consistent hrest ((stepAt_of_pending_sample tPd hp).symm.trans h)

/-- Every run from a consistent state goes on, to a consistent state (R80, R120). -/
theorem runAt_consistent (tPd n : Nat) {s : State} (hs : s.Consistent tPd) :
    ∃ t, runAt tPd n s = .next t ∧ t.Consistent tPd :=
  runAt_of_step (fun s hs =>
    have ⟨t, ht⟩ := (consistentBlockNeverStops tPd s hs).2
    ⟨t, ht, stepAt_keeps_consistent hs ht⟩) n s hs

/-- What a run from a consistent state comes to is consistent. -/
theorem runAt_keeps_consistent {tPd n : Nat} {s t : State} (hs : s.Consistent tPd) (h : runAt tPd n s = .next t) :
    t.Consistent tPd := by
  obtain ⟨u, hu, hc⟩ := runAt_consistent tPd n hs
  obtain rfl : u = t := Host.Outcome.next.inj (hu.symm.trans h)
  exact hc

/-- Two consistent blocks that are settled on the same input show the same outputs, whatever the delay of each (R100). -/
theorem State.Consistent.out_eq_of_input_eq {tPd tPd' : Nat} {t u : State} (ht : t.Consistent tPd)
    (hu : u.Consistent tPd') (hts : t.stability = .settled) (hus : u.stability = .settled) (hinput : t.input = u.input) :
    t.out = u.out := by
  obtain ⟨b, ⟨-, htb⟩, hout⟩ := ht.out_of_settled hts
  rw [hout, (hu.settledOn hus (hinput.symm.trans htb)).out_eq]

end Sys2Proof.Machine
end

section
/-! SUPPORT. The lookup table of R52 is the whole operation, so the block that is the table is the block. -/

namespace Sys2Proof.Machine

/-- The entry at index b is the bundle of decode(b) (R52). -/
theorem lookupTable_getElem? : ∀ b : Byte, lookupTable[b.toNat]? = some (decodeWhole b).bundle := by
  decide +kernel

/-- Sixteen rows of sixteen entries. -/
theorem lookupTable_length : lookupTable.length = 256 := by decide +kernel

theorem tableOutputs_eq (b : Byte) : tableOutputs b = decodeWhole b := by
  rw [tableOutputs, List.getD_eq_getElem?_getD, lookupTable_getElem?, Option.getD_some, Outputs.ofBundle_bundle]

theorem tableStep_eq (tPd : Nat) : tableStep tPd = stepAt tPd := by
  funext s
  simp only [tableStep, stepAt, runDecode_eq, tableOutputs_eq]

theorem tableRunAt_eq (tPd n : Nat) (s : State) : tableRunAt tPd n s = runAt tPd n s := by
  unfold tableRunAt tableCore
  rw [tableStep_eq]
  rfl

end Sys2Proof.Machine
end

section
/-! SUPPORT. What stepping two instances one after the other comes to, by what each does alone (R132). -/

namespace Sys2Proof.Machine

section Two

variable {delay : Nat → Nat} {k j : Nat} {ss : List State} {s r t u : State}
  (hne : k ≠ j) (hk : ss[k]? = some s) (hj : ss[j]? = some r)

include hk in
/-- The second of the two is stepped in the list the first one leaves. -/
theorem stepTwo_of_next (ht : stepAt (delay k) s = .next t) :
    stepTwo delay k j ss = stepInstance delay j (ss.set k t) := by
  simp only [stepTwo, stepInstance_of_next hk ht]

include hne hk hj in
/-- Where both go on, each is replaced by what it comes to alone. -/
theorem stepTwo_of_next_next (ht : stepAt (delay k) s = .next t) (hu : stepAt (delay j) r = .next u) :
    stepTwo delay k j ss = .next ((ss.set k t).set j u) := by
  rw [stepTwo_of_next hk ht, stepInstance_of_next ((List.getElem?_set_ne hne).trans hj) hu]

include hne hk hj in
/-- Where either stops, the list stops with the one fault there is, whichever is stepped first (log 18). -/
theorem stepTwo_of_fault (h : stepAt (delay k) s = .fault .undefinedKind ∨ stepAt (delay j) r = .fault .undefinedKind) :
    stepTwo delay k j ss = .fault .undefinedKind := by
  obtain ⟨t, ht⟩ | ⟨-, -, -, hfault⟩ := stepAt_next_or_fault (delay k) s
  · have hfault : stepAt (delay j) r = .fault .undefinedKind := h.resolve_left (by simp [ht])
    rw [stepTwo_of_next hk ht, stepInstance_of_fault ((List.getElem?_set_ne hne).trans hj) hfault]
  · simp only [stepTwo, stepInstance_of_fault hk hfault]

end Two

end Sys2Proof.Machine
end

section
/-! The obligations on the memory of the block and its instances (20_memory.md). -/

namespace Sys2Proof.Machine

/-- Settles O44: each of these stimuli leaves the port and the power as they are, and a settled block then drives the decode
that is on its outputs already. -/
theorem unchangedInputKeepsTheOutputs : Obligations.UnchangedInputKeepsTheOutputs := by
  intro tPd s b hs hsettled hinput
  have hon : s.SettledOn b := hs.settledOn hsettled hinput
  refine ⟨fun hp => (stepAt_of_pending_nil tPd hp).trans hon.settle_eq, fun x rest hp hx => ?_⟩
  have hrest : (s.withPending rest).SettledOn b := hon.withPending rest
  have hport : (s.withPending rest).changeInput (.driven b) = s.withPending rest :=
    State.changeInput_same _ _ hinput.symm
  have hpower : (s.withPending rest).setPower true = s.withPending rest :=
    State.setPower_same _ _ hon.drives.1.symm
  obtain rfl | rfl | rfl | rfl | ⟨t, rfl⟩ := hx
  · exact (stepAt_of_pending_sample tPd hp).trans hrest.sampleOutputs_eq
  · rw [stepAt_of_pending_decode tPd hp, hport]
    exact hrest.settle_eq
  · rw [stepAt_of_pending_drive tPd hp, hport]
    exact hrest.elapse_eq tPd 0
  · rw [stepAt_of_pending_power tPd hp, hpower]
    exact hrest.elapse_eq tPd 0
  · exact (stepAt_of_pending_hold tPd hp).trans (hrest.elapse_eq tPd t)

/-- Settles O51, by induction on the inputs before the last: each step is one `DECODE`, and the last one writes over all that
the earlier ones wrote. -/
theorem stimulusProgramSettlesOnEachInput : Obligations.StimulusProgramSettlesOnEachInput := by
  intro tPd s bs b rest hpower hp
  induction bs generalizing s with
  | nil =>
    have hpresents : s.Presents b := ⟨hpower, by rw [hp]; rfl⟩
    have htail : s.pending.tail = rest := by rw [hp]; rfl
    rw [List.length_nil, runAt_succ_of_next (stepAt_of_presents tPd hpresents), runAt_zero, htail]
  | cons c bs ih =>
    have hpresents : s.Presents c := ⟨hpower, by rw [hp]; rfl⟩
    have htail : s.pending.tail = stimulusProgram (bs ++ [b]) ++ rest := by rw [hp]; rfl
    rw [List.length_cons, runAt_succ_of_next (stepAt_of_presents tPd hpresents)]
    exact ih _ hpower htail

/-- Settles O55: the table's entries are the bundles of `decodeWhole`, and its block is the block. -/
theorem lookupTableRunsAsTheBlock : Obligations.LookupTableRunsAsTheBlock :=
  ⟨lookupTable_length, fun b s => ⟨_, exec_decode b s, lookupTable_getElem? b⟩, tableRunAt_eq⟩

/-- Settles O56: the k-th place of the list is set, and no other. -/
theorem instancesShareNothing : Obligations.InstancesShareNothing := by
  intro delay k ss s t hs ht
  obtain ⟨hk, -⟩ := List.getElem?_eq_some_iff.1 hs
  exact ⟨_, stepInstance_of_next hs ht, List.length_set, List.getElem?_set_self hk,
    fun _ hj => List.getElem?_set_ne hj.symm⟩

/-- Settles O57: where both go on the two places are set in either order; where one stops, both orders end in the one fault. -/
theorem instancesStepInAnyOrder : Obligations.InstancesStepInAnyOrder := by
  intro delay k j ss hne hklt hjlt
  have hk : ss[k]? = some ss[k] := List.getElem?_eq_getElem hklt
  have hj : ss[j]? = some ss[j] := List.getElem?_eq_getElem hjlt
  have hstop : stepAt (delay k) ss[k] = .fault .undefinedKind ∨ stepAt (delay j) ss[j] = .fault .undefinedKind →
      stepTwo delay k j ss = stepTwo delay j k ss := fun h =>
    (stepTwo_of_fault hne hk hj h).trans (stepTwo_of_fault hne.symm hj hk h.symm).symm
  obtain ⟨t, ht⟩ | ⟨-, -, -, hfault⟩ := stepAt_next_or_fault (delay k) ss[k]
  · obtain ⟨u, hu⟩ | ⟨-, -, -, hfault⟩ := stepAt_next_or_fault (delay j) ss[j]
    · rw [stepTwo_of_next_next hne hk hj ht hu, stepTwo_of_next_next hne.symm hj hk hu ht, List.set_comm _ _ hne]
    · exact hstop (.inr hfault)
  · exact hstop (.inl hfault)

/-- Settles O59: the table's block is the block, which settles on the decode of a presented byte and, from a consistent state,
shows the decode of its input at every settled moment. -/
theorem tableAgreesWithTheBlockAtSettledMoments : Obligations.TableAgreesWithTheBlockAtSettledMoments := by
  refine ⟨lookupTable_length, fun tPd tPd' s r b hs hr => ?_, fun tPd tPd' n n' s r t u hs hr ht hu hts hus hinput => ?_⟩
  · rw [tableStep_eq]
    exact ⟨_, _, stepAt_of_presents tPd hs, stepAt_of_presents tPd' hr, rfl, rfl, rfl, lookupTable_getElem? b⟩
  · rw [tableRunAt_eq] at hu
    exact (runAt_keeps_consistent hs ht).out_eq_of_input_eq (runAt_keeps_consistent hr hu) hts hus hinput

end Sys2Proof.Machine
end

section
/-! SUPPORT. The encoding: the round trip for every instruction, the class of an input by its fields and by its bytes, and the
opcode table (R60 to R70). -/

namespace Sys2Proof

/-! ### The word of an instruction (R60, R69) -/

/-- The decoder undoes the encoder on the instructions that the table's constraints allow. -/
theorem decode_encode {i : Instr} (h : i.WellFormed) : decode (encode i) = i := by
  cases i with
  | decInf sgn => exact Laws.RoundTrip.decInf sgn h
  | decNan sgn m => exact Laws.RoundTrip.decNan sgn m h
  | decSub sgn m => exact Laws.RoundTrip.decSub sgn m h
  | decNorm sgn e m => exact Laws.RoundTrip.decNorm sgn e m h

/-- The three fields stand side by side and leave no bit of the word out (R60). -/
theorem assemble_fields (b : Byte) : assemble (signField b) (exponentField b) (mantissaField b) = b := by
  have hupper : b.extractLsb' 7 1 ++ b.extractLsb' 3 4 = b.extractLsb' 3 5 :=
    BitVec.extractLsb'_append_extractLsb'_eq_extractLsb' rfl
  calc assemble (signField b) (exponentField b) (mantissaField b)
      = b.extractLsb' 7 1 ++ b.extractLsb' 3 4 ++ b.extractLsb' 0 3 := rfl
    _ = b.extractLsb' 3 5 ++ b.extractLsb' 0 3 := by rw [hupper]
    _ = b := BitVec.extractLsb'_append_extractLsb'

/-- A field of `len` bits from bit `start` on is a shift and a mask (R61 to R63). -/
theorem toNat_extractLsb'_eq_shift_and_mask (b : Byte) (start len : ℕ) :
    (b.extractLsb' start len).toNat = (b.toNat >>> start) &&& (2 ^ len - 1) := by
  rw [BitVec.extractLsb'_toNat, Nat.and_two_pow_sub_one_eq_mod]

/-! ### The class of an input (R65, R66) -/

/-- The four classes, each with the fields that select it. -/
theorem decode_cls_cases (b : Byte) :
    (exponentField b = 15#4 ∧ mantissaField b = 0#3 ∧ (decode b).cls = .inf) ∨
    (exponentField b = 15#4 ∧ mantissaField b ≠ 0#3 ∧ (decode b).cls = .nan) ∨
    (exponentField b = 0#4 ∧ (decode b).cls = .sub) ∨
    (exponentField b ≠ 15#4 ∧ exponentField b ≠ 0#4 ∧ (decode b).cls = .norm) := by
  by_cases h15 : exponentField b = 15#4
  · by_cases hm : mantissaField b = 0#3 <;> simp [decode, Config.specialExponent, Instr.cls, h15, hm]
  · by_cases h0 : exponentField b = 0#4 <;> simp [decode, Config.specialExponent, Instr.cls, h15, h0]

section Classes

variable (b : Byte)

theorem decode_cls_eq_inf_iff_fields : (decode b).cls = .inf ↔ exponentField b = 15#4 ∧ mantissaField b = 0#3 := by
  obtain ⟨he, hm, hcls⟩ | ⟨-, hm, hcls⟩ | ⟨he, hcls⟩ | ⟨he, -, hcls⟩ := decode_cls_cases b
  · simp [hcls, he, hm]
  · simp [hcls, hm]
  · simp [hcls, he]
  · simp [hcls, he]

theorem decode_cls_eq_nan_iff_fields : (decode b).cls = .nan ↔ exponentField b = 15#4 ∧ mantissaField b ≠ 0#3 := by
  obtain ⟨-, hm, hcls⟩ | ⟨he, hm, hcls⟩ | ⟨he, hcls⟩ | ⟨he, -, hcls⟩ := decode_cls_cases b
  · simp [hcls, hm]
  · simp [hcls, he, hm]
  · simp [hcls, he]
  · simp [hcls, he]

theorem decode_cls_eq_sub_iff_field : (decode b).cls = .sub ↔ exponentField b = 0#4 := by
  obtain ⟨he, -, hcls⟩ | ⟨he, -, hcls⟩ | ⟨he, hcls⟩ | ⟨-, he, hcls⟩ := decode_cls_cases b <;> simp [hcls, he]

/-- The range of DEC_NORM is every exponent field but the two that the other classes claim. -/
theorem decode_cls_eq_norm_iff_field :
    (decode b).cls = .norm ↔ 1 ≤ (exponentField b).toNat ∧ (exponentField b).toNat ≤ 14 := by
  have hne : (exponentField b).toNat ≠ 0 ↔ exponentField b ≠ 0#4 := not_congr (BitVec.toNat_inj (y := 0#4))
  rw [Machine.toNat_le_fourteen_iff, Nat.one_le_iff_ne_zero, hne]
  obtain ⟨he, -, hcls⟩ | ⟨he, -, hcls⟩ | ⟨he, hcls⟩ | ⟨h15, h0, hcls⟩ := decode_cls_cases b
  · simp [hcls, he]
  · simp [hcls, he]
  · simp [hcls, he]
  · simp [hcls, h15, h0]

/-- The condition of a class holds exactly of the inputs that the decoder puts in it (R65). -/
theorem classCondition_iff (c : DecClass) : classCondition c b = true ↔ (decode b).cls = c := by
  cases c with
  | inf => simp [classCondition, decode_cls_eq_inf_iff_fields]
  | nan => simp [classCondition, decode_cls_eq_nan_iff_fields]
  | sub => simp [classCondition, decode_cls_eq_sub_iff_field]
  | norm => simp [classCondition, decode_cls_eq_norm_iff_field]

end Classes

/-- The conditions read e and m alone (R65). -/
theorem classCondition_congr {a b : Byte} (he : exponentField a = exponentField b)
    (hm : mantissaField a = mantissaField b) (c : DecClass) : classCondition c a = classCondition c b := by
  cases c <;> simp only [classCondition, he, hm]

/-- Bit 7 is the sign bit and lies in neither of the other fields, so it selects no class (R65). -/
theorem decode_cls_flip_sign (b : Byte) : (decode (b ^^^ 0x80)).cls = (decode b).cls := by
  have he : exponentField (b ^^^ 0x80) = exponentField b := BitVec.extractLsb'_xor.trans BitVec.xor_zero
  have hm : mantissaField (b ^^^ 0x80) = mantissaField b := BitVec.extractLsb'_xor.trans BitVec.xor_zero
  rw [← classCondition_iff, classCondition_congr he hm, classCondition_iff]

/-! ### The bytes of each class (R68) -/

theorem decode_cls_eq_inf_iff : ∀ b : Byte, (decode b).cls = .inf ↔ b = 0x78 ∨ b = 0xF8 := by decide

theorem decode_cls_eq_nan_iff : ∀ b : Byte, (decode b).cls = .nan ↔ (0x79 ≤ b ∧ b ≤ 0x7F) ∨ 0xF9 ≤ b := by decide

theorem decode_cls_eq_sub_iff : ∀ b : Byte, (decode b).cls = .sub ↔ b ≤ 0x07 ∨ (0x80 ≤ b ∧ b ≤ 0x87) := by decide

theorem decode_cls_eq_norm_iff :
    ∀ b : Byte, (decode b).cls = .norm ↔ (0x08 ≤ b ∧ b ≤ 0x77) ∨ (0x88 ≤ b ∧ b ≤ 0xF7) := by decide

theorem classCount_inf : classCount .inf = 2 := by decide +kernel
theorem classCount_nan : classCount .nan = 14 := by decide +kernel
theorem classCount_sub : classCount .sub = 16 := by decide +kernel
theorem classCount_norm : classCount .norm = 224 := by decide +kernel

/-! ### The opcode table (R69) -/

/-- In priority order the first row that matches is the decoder's class. -/
theorem classByPriority_eq : ∀ b : Byte, classByPriority b = some (decode b).cls := by decide

/-- By the match sets the one row that matches is the decoder's class: a byte is the word of its instruction. -/
theorem classesByMatchSet_eq (b : Byte) : classesByMatchSet b = [(decode b).cls] := by
  have hrow : ∀ i : Instr, i.WellFormed → classesByMatchSet (encode i) = [i.cls] := by
    intro i h
    cases i with
    | decInf sgn => exact Laws.TableRow.decInf sgn h
    | decNan sgn m => exact Laws.TableRow.decNan sgn m h
    | decSub sgn m => exact Laws.TableRow.decSub sgn m h
    | decNorm sgn e m => exact Laws.TableRow.decNorm sgn e m h
  simpa only [encode_decode] using hrow (decode b) (decode_wellFormed b)

/-- The pairs of all match sets do not overlap, and leave no byte out. -/
theorem countP_matchSet_covers :
    ∀ b : Byte, ((opcodeTable.flatMap OpcodeRow.matchSet).countP fun p => p.covers b) = 1 := by decide

/-- The `count` column is the number of inputs that the decoder puts in the row's class (R68). -/
theorem opcodeTable_count : ∀ r ∈ opcodeTable, r.count = classCount r.cls := by
  simp [opcodeTable, classCount_inf, classCount_nan, classCount_sub, classCount_norm]

/-- No mask of the table looks at bit 7. -/
theorem opcodeTable_mask_ignores_sign :
    ∀ r ∈ opcodeTable, ∀ p ∈ r.byPriority :: r.matchSet, p.mask.getLsbD 7 = false := by decide

end Sys2Proof
end

section
/-! SUPPORT. The values of the finite inputs by their exponent and mantissa fields (R67), and the step that runs a presented
word (R72). -/

namespace Sys2Proof.Machine

/-! ### Values by the fields (R67) -/

theorem max_toNat_one {e : Exponent} (h0 : e ≠ 0#4) : (max e.toNat 1 : ℤ) = e.toNat := by
  have hpos : 0 < e.toNat := BitVec.toNat_pos_of_ne_zero h0
  omega

/-- The exponent fields 0 and 1 have one effective exponent (R81). -/
theorem finiteExponent_eq_max (b : Byte) : finiteExponent b = (max (exponentField b).toNat 1 : ℤ) - 7 := by
  unfold finiteExponent
  split_ifs with h0
  · rw [h0]
    rfl
  · rw [max_toNat_one h0]
    rfl

/-- The 8 of the implicit bit is the 2^3 between the two spellings of the exponent (R86, R88). -/
theorem two_zpow_sub_seven (k : ℤ) : (2 : ℚ) ^ (k - 7) = 8 * 2 ^ (k - 10) := by
  rw [zpow_sub₀ two_ne_zero, zpow_sub₀ two_ne_zero]
  ring

/-- Below 7 the next mantissa is one more, with no carry into the exponent. -/
theorem toNat_add_one_of_ne_seven {m : Mantissa} (hm : m ≠ 7#3) : (m + 1#3).toNat = m.toNat + 1 := by
  have hlt : m.toNat < 8 := m.isLt
  have hne : m.toNat ≠ 7 := fun h => hm (BitVec.eq_of_toNat_eq h)
  exact BitVec.toNat_add_of_lt (y := 1#3) (show m.toNat + 1 < 8 by omega)

section Value

variable {e : Exponent} (m : Mantissa) (he : e ≠ 15#4)
include he

/-- A finite input has the sign it was assembled with. -/
theorem decodeWhole_sign_assemble (sgn : Bit) : (decodeWhole (assemble sgn e m)).sign = sgn := by
  obtain ⟨hsgn, hexp, -⟩ := fields_assemble sgn e m
  rw [(decodeWhole_finite _ (by rwa [hexp])).2, hsgn]

/-- The magnitude by the fields: m steps of 2^(max(e, 1) - 10), above 8 steps where the implicit bit is 1. -/
theorem decodeWhole_magnitude_assemble (sgn : Bit) :
    (decodeWhole (assemble sgn e m)).magnitude =
      ((if e = 0#4 then 0 else 8) + m.toNat) * (2 : ℚ) ^ ((max e.toNat 1 : ℤ) - 10) := by
  obtain ⟨-, hexp, hman⟩ := fields_assemble sgn e m
  rw [decodeWhole_magnitude (by rwa [hexp]), finiteExponent_eq_max, fraction, hexp, hman, two_zpow_sub_seven]
  split_ifs <;> ring

theorem decodeWhole_value_positive :
    (decodeWhole (assemble 0#1 e m)).value =
      ((if e = 0#4 then 0 else 8) + m.toNat) * (2 : ℚ) ^ ((max e.toNat 1 : ℤ) - 10) := by
  simp [Outputs.value, decodeWhole_sign_assemble m he, decodeWhole_magnitude_assemble m he, signFactor]

theorem decodeWhole_value_negative :
    (decodeWhole (assemble 1#1 e m)).value = -(decodeWhole (assemble 0#1 e m)).value := by
  simp [Outputs.value, decodeWhole_sign_assemble m he, decodeWhole_magnitude_assemble m he, signFactor]

end Value

/-- The magnitude of a finite input is 0 at e = 0, m = 0 only. -/
theorem fraction_eq_zero_iff (b : Byte) : fraction b = 0 ↔ exponentField b = 0#4 ∧ mantissaField b = 0#3 := by
  unfold fraction
  split_ifs with h0
  · have hm : mantissaField b = 0#3 ↔ (mantissaField b).toNat = 0 := BitVec.toNat_inj.symm
    simp [h0, hm]
  · have hpos : (0 : ℚ) < 1 + (mantissaField b).toNat / 8 := by positivity
    simp [h0, hpos.ne']

/-- The two zeros among the bytes (R68, R90). -/
theorem zero_fields_iff : ∀ b : Byte, exponentField b = 0#4 ∧ mantissaField b = 0#3 ↔ b = 0x00 ∨ b = 0x80 := by decide

/-- The results that are a zero are those of the two zeros. -/
theorem decodeWhole_abs_eq_zero_iff (b : Byte) :
    (decodeWhole b).abs = .ok (.finite (signField b) 0) ↔ b = 0x00 ∨ b = 0x80 := by
  rw [← zero_fields_iff]
  by_cases he : exponentField b = 15#4
  · have hkind : (decodeWhole b).kind ≠ 0b00#2 := fun hk => decodeWhole_kind_eq_finite_iff.1 hk he
    have hne : (decodeWhole b).abs ≠ .ok (.finite (signField b) 0) := fun h => by
      obtain ⟨hk, -⟩ | ⟨-, ⟨⟩⟩ | ⟨-, ⟨⟩⟩ := Outputs.abs_ok_cases h
      exact hkind hk
    simp [hne, he]
  · obtain ⟨hkind, hsign⟩ := decodeWhole_finite b he
    rw [Outputs.abs_of_kind_finite hkind, hsign, decodeWhole_magnitude he, ← fraction_eq_zero_iff]
    simp [zpow_ne_zero]

/-! ### The step that runs a presented word (R72, R82) -/

/-- A step that presents `DECODE b` is the meaning of the decoded word, at the state with `b` on the port, settled. -/
theorem step_of_presents {s : State} {b : Byte} (h : s.Presents b) :
    step s = exec (decode b) { s with input := .driven b, stability := .settled, pending := s.pending.tail } := by
  rw [step_eq, stepAt_of_presents Config.tPd h, exec_decode]
  rfl

/-- To place a word in a powered block is to put its `DECODE` first among the stimuli (log 5). -/
theorem State.withFetchWord_eq {s : State} {w : ℕ} (hpower : s.powerStable = true) (hw : w < 256) :
    s.withFetchWord 8 w = s.withPending (.decode (BitVec.ofNat 8 w) :: s.pending) := by
  have hplaced : 8 = Config.inputWidth ∧ w < Config.encodings := ⟨rfl, hw⟩
  rw [State.withFetchWord, State.loadWord, if_pos hplaced, State.setPower_same s true hpower.symm]

end Sys2Proof.Machine
end

section
/-! The obligations on the encoding (30_encoding.md). -/

namespace Sys2Proof.Machine

/-- Settles O1: the round trip, class by class. -/
theorem decodeOfEncodeIsTheInstruction : Obligations.DecodeOfEncodeIsTheInstruction :=
  fun _ h => decode_encode h

/-- Settles O2: the decoder finds the instruction, and the round trip leaves no other. -/
theorem everyByteIsTheWordOfOneInstruction : Obligations.EveryByteIsTheWordOfOneInstruction := by
  refine fun b => ⟨decode b, decode_wellFormed b, encode_decode b, fun j hj hb => ?_⟩
  rw [← hb, decode_encode hj]

/-- Settles O5: the condition of a class reads e and m alone, and so does the class's result kind. -/
theorem eachInputFallsInExactlyOneClass : Obligations.EachInputFallsInExactlyOneClass := by
  refine ⟨classCondition_iff, decode_cls_flip_sign, fun b s => ⟨_, exec_decode b s, ?_⟩⟩
  rw [State.driveOutputs_out]
  obtain ⟨he, hm, hcls⟩ | ⟨he, hm, hcls⟩ | ⟨he, hcls⟩ | ⟨h15, -, hcls⟩ := decode_cls_cases b <;> rw [hcls]
  · exact decodeWhole_kind_eq_infinity_iff.2 ⟨he, hm⟩
  · exact decodeWhole_kind_eq_nan_iff.2 ⟨he, hm⟩
  · exact decodeWhole_kind_eq_finite_iff.2 (by rw [he]; decide)
  · exact decodeWhole_kind_eq_finite_iff.2 h15

/-- Settles O6: every order tests the input's own class, and no other class's condition holds. -/
theorem anyTestOrderGivesTheSameClass : Obligations.AnyTestOrderGivesTheSameClass := by
  intro b l hl
  have hown : (decode b).cls ∈ l := hl.mem_iff.2 (by cases (decode b).cls <;> simp)
  cases hfind : l.find? (fun c => classCondition c b) with
  | none => exact absurd ((classCondition_iff b _).2 rfl) (List.find?_eq_none.1 hfind _ hown)
  | some c => rw [(classCondition_iff b c).1 (List.find?_some (p := fun c => classCondition c b) hfind)]

/-- Settles O26: the value is a number of steps of 2^(max(e, 1) - 10), m of them or 8 + m, and the sign negates it. -/
theorem exponentFieldFixesValuesAndStep : Obligations.ExponentFieldFixesValuesAndStep := by
  intro e s he m
  refine ⟨_, _, exec_decode _ s, exec_decode _ s, decodeWhole_value_negative m he, decodeWhole_sign_assemble m he 1#1,
    decodeWhole_sign_assemble m he 0#1, fun hm => ?_, fun hm => ?_, fun hm => ⟨_, exec_decode _ s, ?_⟩⟩
  · rw [State.driveOutputs_out, decodeWhole_value_positive m he, hm]
    split_ifs with h0
    · simp
    · rw [max_toNat_one h0, two_zpow_sub_seven]
      simp
  · rw [State.driveOutputs_out, decodeWhole_value_positive m he, hm]
    split_ifs with h0
    · rw [h0]
      norm_num
    · rw [max_toNat_one h0]
      norm_num
  · have hnext : (m + 1#3).toNat = m.toNat + 1 := toNat_add_one_of_ne_seven hm
    rw [State.driveOutputs_out, State.driveOutputs_out, decodeWhole_value_positive _ he, decodeWhole_value_positive _ he,
      hnext]
    push_cast
    ring

/-- Settles O3, by running the decoder on each word. -/
theorem wordsWrittenFromThePatternsDecode : Obligations.WordsWrittenFromThePatternsDecode := by
  unfold Obligations.WordsWrittenFromThePatternsDecode
  decide

/-- Settles O4: each field is one shift and mask, and the fields leave no bit out. -/
theorem fieldsAreTakenByShiftAndMask : Obligations.FieldsAreTakenByShiftAndMask := fun b =>
  ⟨toNat_extractLsb'_eq_shift_and_mask b 7 1, toNat_extractLsb'_eq_shift_and_mask b 3 4,
    toNat_extractLsb'_eq_shift_and_mask b 0 3, assemble_fields b⟩

/-- Settles O7: the two readings of the table, and its columns row by row. -/
theorem opcodeTableDecodesBothWays : Obligations.OpcodeTableDecodesBothWays :=
  ⟨fun b => ⟨classByPriority_eq b, classesByMatchSet_eq b, countP_matchSet_covers b⟩,
    fun r hr => ⟨opcodeTable_count r hr, opcodeTable_mask_ignores_sign r hr⟩⟩

/-- Settles O8: the counts, the bytes of each class, and the two zeros. -/
theorem classEncodingsListedAndCounted : Obligations.ClassEncodingsListedAndCounted := by
  refine ⟨classCount_inf, classCount_nan, classCount_sub, classCount_norm, ?_, ?_, fun b =>
    ⟨decode_cls_eq_inf_iff b, decode_cls_eq_nan_iff b, decode_cls_eq_sub_iff b, decode_cls_eq_norm_iff b,
      decodeWhole_abs_eq_zero_iff b⟩⟩
  · rw [classCount_inf, classCount_nan]
  · rw [classCount_sub, classCount_norm]

/-- Settles O33: the word of a well-formed instruction decodes to it. -/
theorem stepRunsThePresentedInstruction : Obligations.StepRunsThePresentedInstruction := by
  refine fun s b hs => ⟨step_of_presents hs, fun i hi hb => ?_⟩
  subst hb
  rw [step_of_presents hs, decode_encode hi]

/-- Settles O35: a placed word is a presented word. -/
theorem placedWordIsRunByTheNextStep : Obligations.PlacedWordIsRunByTheNextStep := by
  intro s w hpower hw
  have hpresents : (s.withPending (.decode (BitVec.ofNat 8 w) :: s.pending)).Presents (BitVec.ofNat 8 w) := ⟨hpower, rfl⟩
  rw [State.withFetchWord_eq hpower hw, step_of_presents hpresents]
  rfl

end Sys2Proof.Machine
end

section
/-! SUPPORT. The word of a class with its fields and by a mask (R65, R83 to R86), what a presented word settles on (R80), the
sign bit of an input (R92, R95), and the gates, which compute the whole operation (R101). -/

namespace Sys2Proof

section Fields

variable {b : Byte}

theorem decode_of_cls_inf (h : (decode b).cls = .inf) : decode b = .decInf (signField b) := by
  obtain ⟨he, hm⟩ := (decode_cls_eq_inf_iff_fields b).1 h
  simp [decode, Config.specialExponent, he, hm]

theorem decode_of_cls_nan (h : (decode b).cls = .nan) : decode b = .decNan (signField b) (mantissaField b) := by
  obtain ⟨he, hm⟩ := (decode_cls_eq_nan_iff_fields b).1 h
  simp [decode, Config.specialExponent, he, hm]

theorem decode_of_cls_sub (h : (decode b).cls = .sub) : decode b = .decSub (signField b) (mantissaField b) := by
  have he := (decode_cls_eq_sub_iff_field b).1 h
  simp [decode, Config.specialExponent, he]

theorem decode_of_cls_norm (h : (decode b).cls = .norm) :
    decode b = .decNorm (signField b) (exponentField b) (mantissaField b) := by
  obtain ⟨-, -, hcls⟩ | ⟨-, -, hcls⟩ | ⟨-, hcls⟩ | ⟨h15, h0, -⟩ := decode_cls_cases b
  · cases h.symm.trans hcls
  · cases h.symm.trans hcls
  · cases h.symm.trans hcls
  · simp [decode, Config.specialExponent, h15, h0]

/-- The operands that the constraint of DEC_NORM allows (R69). -/
theorem wellFormed_decNorm_iff {sgn : Bit} {e : Exponent} {m : Mantissa} :
    (Instr.decNorm sgn e m).WellFormed ↔ 1 ≤ e.toNat ∧ e.toNat ≤ 14 := by
  have hne : e.toNat ≠ 0 ↔ e ≠ 0#4 := not_congr (BitVec.toNat_inj (y := 0#4))
  rw [Machine.toNat_le_fourteen_iff, Nat.one_le_iff_ne_zero, hne]
  simp [Instr.WellFormed, Instr.wf]

end Fields

/-! ### The classes by a mask on the byte (R83 to R86) -/

theorem decode_cls_eq_inf_iff_mask : ∀ b : Byte, (decode b).cls = .inf ↔ b &&& 0x7F = 0x78 := by decide

theorem decode_cls_eq_nan_iff_mask :
    ∀ b : Byte, (decode b).cls = .nan ↔ b &&& 0x7F = 0x79 ∨ b &&& 0x7E = 0x7A ∨ b &&& 0x7C = 0x7C := by decide

theorem decode_cls_eq_sub_iff_mask : ∀ b : Byte, (decode b).cls = .sub ↔ b &&& 0x78 = 0x00 := by decide

theorem decode_cls_eq_norm_iff_mask :
    ∀ b : Byte, (decode b).cls = .norm ↔ b &&& 0x78 = 0x08 ∨ b &&& 0x70 = 0x10 ∨ b &&& 0x60 = 0x20 ∨
      b &&& 0x60 = 0x40 ∨ b &&& 0x70 = 0x60 ∨ b &&& 0x78 = 0x70 := by decide

/-! ### Flipping bit 7 (R95) -/

section FlipSign

variable (b : Byte)

theorem signField_flip_sign : signField (b ^^^ 0x80) = ~~~ signField b :=
  BitVec.extractLsb'_xor.trans BitVec.xor_allOnes

theorem exponentField_flip_sign : exponentField (b ^^^ 0x80) = exponentField b :=
  BitVec.extractLsb'_xor.trans BitVec.xor_zero

theorem mantissaField_flip_sign : mantissaField (b ^^^ 0x80) = mantissaField b :=
  BitVec.extractLsb'_xor.trans BitVec.xor_zero

end FlipSign

namespace Machine

/-- A presented word settles on what its decode stands for, and on nothing else (R33, R80). -/
theorem State.Presents.settlesOn_iff {s : State} {b : Byte} (h : s.Presents b) (tPd : Nat) (d : Decoded) :
    s.SettlesOn tPd d ↔ (decodeWhole b).abs = .ok d := by
  simp [State.SettlesOn, stepAt_of_presents tPd h]

/-- Flipping the sign bit of an input that is no NaN inverts `sign` and nothing else (R95). -/
theorem decodeWhole_flip_sign {b : Byte} (h : (decode b).cls ≠ .nan) :
    decodeWhole (b ^^^ 0x80) = { decodeWhole b with sign := ~~~ (decodeWhole b).sign } := by
  have hne : ¬(exponentField b = 15#4 ∧ mantissaField b ≠ 0#3) := (decode_cls_eq_nan_iff_fields b).not.1 h
  obtain he | ⟨he, hm⟩ | hnan := finite_or_infinity_or_nan b
  · have he' : exponentField (b ^^^ 0x80) ≠ 15#4 := exponentField_flip_sign b ▸ he
    rw [decodeWhole_of_finite he, decodeWhole_of_finite he', finiteExponent, finiteExponent, signField_flip_sign,
      exponentField_flip_sign, mantissaField_flip_sign]
  · rw [decodeWhole_of_infinity he hm, decodeWhole_of_infinity (exponentField_flip_sign b ▸ he)
      (mantissaField_flip_sign b ▸ hm), signField_flip_sign]
  · exact absurd hnan hne

/-- The ports of every NaN input (R84, R91). -/
theorem decodeWhole_of_cls_nan {b : Byte} (h : (decode b).cls = .nan) :
    decodeWhole b = ⟨0b10#2, 0b0#1, 0b0000#4, 0b0000#4⟩ := by
  obtain ⟨he, hm⟩ := (decode_cls_eq_nan_iff_fields b).1 h
  exact decodeWhole_of_nan he hm

/-- A gate on one bit (R92). -/
theorem and_not_ofBool (x : Bit) (c : Bool) : x &&& ~~~ BitVec.ofBool c = if c then 0#1 else x := by
  revert x c
  decide

/-- The sign output is the input's sign, gated by the NaN condition (R92). -/
theorem decodeWhole_sign_eq_gated (b : Byte) :
    (decodeWhole b).sign =
      signField b &&& ~~~ BitVec.ofBool (exponentField b == 15#4 && mantissaField b != 0#3) := by
  rw [and_not_ofBool]
  obtain he | ⟨he, hm⟩ | ⟨he, hm⟩ := finite_or_infinity_or_nan b
  · simp [decodeWhole_of_finite he, he]
  · simp [decodeWhole_of_infinity he hm, hm]
  · simp [decodeWhole_of_nan he hm, he, hm]

/-! ### The gates of R101 -/

/-- Adding 1001 is the bias subtraction modulo 16 (R87). -/
theorem twos4_effectiveExponent (e : Exponent) : twos4 (effectiveExponent e) = e + 0b1001#4 := by
  revert e
  decide

theorem twos4_emin : twos4 Config.emin = 0b1010#4 := by decide

theorem gateOutputs_eq (b : Byte) : gateOutputs b = decodeWhole b := by
  simp only [gateOutputs, and_not_ofBool]
  by_cases he : exponentField b = 15#4
  · by_cases hm : mantissaField b = 0#3
    · simp [decodeWhole, he, hm]
    · have hm' : (mantissaField b == 0#3) = false := beq_false_of_ne hm
      simp [decodeWhole, he, hm, hm', bne]
  · have he' : (exponentField b == 15#4) = false := beq_false_of_ne he
    by_cases h0 : exponentField b = 0#4
    · simp [decodeWhole, h0, twos4_emin, significand]
    · have h0' : (exponentField b == 0#4) = false := beq_false_of_ne h0
      simp [decodeWhole, he, he', h0, h0', twos4_effectiveExponent, significand]

theorem gateStep_eq (tPd : Nat) : gateStep tPd = stepAt tPd := by
  funext s
  simp only [gateStep, stepAt, runDecode_eq, gateOutputs_eq]

theorem gateRunAt_eq (tPd n : Nat) (s : State) : gateRunAt tPd n s = runAt tPd n s := by
  unfold gateRunAt gateCore
  rw [gateStep_eq]
  rfl

end Machine

end Sys2Proof
end

section
/-! SUPPORT. The exponent, the significand and the exact value of a finite result, in units of 2^-9 (R85 to R89, R98). -/

namespace Sys2Proof.Machine

/-! ### The bias subtraction and the implicit bit (R87, R88) -/

/-- The effective exponents of DEC_NORM lie between EMIN and EMAX (R87). -/
theorem effectiveExponent_mem_range {e : Exponent} (hlo : 1 ≤ e.toNat) (hhi : e.toNat ≤ 14) :
    -6 ≤ effectiveExponent e ∧ effectiveExponent e ≤ 7 := by
  simp only [effectiveExponent, Config.bias]
  omega

/-- The 5-bit subtraction of R87, its carry dropped, is the 4-bit addition of 1001. -/
theorem setWidth_sub_seven : ∀ e : Exponent, (e.setWidth 5 - 7#5).setWidth 4 = e + 0b1001#4 := by decide

/-- The implicit bit is the top bit of the significand (R88). -/
theorem getLsbD_three_significand (implicit : Bit) (m : Mantissa) :
    (significand implicit m).getLsbD 3 = implicit.getLsbD 0 := by
  rw [significand, BitVec.getLsbD_append]
  rfl

/-- The exact magnitude that a finite class drives: the 3 bits of the mantissa weigh 2^-3 (R85, R86). -/
theorem magnitude_of_ports {k : ℤ} (hlo : -8 ≤ k) (hhi : k < 8) (kind : BitVec 2) (sgn implicit : Bit) (m : Mantissa) :
    Outputs.magnitude ⟨kind, sgn, twos4 k, significand implicit m⟩ =
      (8 * (implicit.toNat : ℚ) + m.toNat) * (2 : ℚ) ^ (k - 3) := by
  simp only [Outputs.magnitude, sval4_twos4 hlo hhi, toNat_significand]
  push_cast
  rfl

theorem Outputs.magnitude_nonneg (o : Outputs) : 0 ≤ o.magnitude := by
  unfold magnitude
  positivity

/-! ### The finite inputs (R89, R98) -/

/-- The magnitude of a finite input counted in units of 2^-9, the smallest denormalized number (R98). -/
def magnitudeUnits (b : Byte) : ℕ :=
  ((if exponentField b = 0#4 then 0 else 8) + (mantissaField b).toNat) * 2 ^ (max (exponentField b).toNat 1 - 1)

section Finite

variable {b : Byte} (he : exponentField b ≠ 15#4)
include he

theorem decodeWhole_sig_toNat :
    (decodeWhole b).sig.toNat = (if exponentField b = 0#4 then 0 else 8) + (mantissaField b).toNat := by
  rw [decodeWhole_of_finite he]
  simp only [toNat_significand]
  split_ifs <;> rfl

theorem decodeWhole_sig_top_bit : (decodeWhole b).sig.getLsbD 3 = true ↔ exponentField b ≠ 0#4 := by
  rw [decodeWhole_of_finite he]
  simp only [getLsbD_three_significand]
  split_ifs with h0 <;> simp [h0]

theorem sval4_decodeWhole_expEff : sval4 (decodeWhole b).expEff = finiteExponent b := by
  rw [decodeWhole_of_finite he]
  exact sval4_twos4_finiteExponent he

/-- The exponent of two in the integer image is never negative (R98). -/
theorem sval4_decodeWhole_expEff_add_six :
    sval4 (decodeWhole b).expEff + 6 = (max (exponentField b).toNat 1 - 1 : ℕ) := by
  rw [sval4_decodeWhole_expEff he, finiteExponent_eq_max]
  omega

theorem decodeWhole_integerImage :
    (decodeWhole b).integerImage = signFactor (signField b) * magnitudeUnits b := by
  rw [Outputs.integerImage, sval4_decodeWhole_expEff_add_six he, Int.toNat_natCast, decodeWhole_sig_toNat he,
    (decodeWhole_finite b he).2, magnitudeUnits]
  push_cast
  ring

theorem decodeWhole_magnitude_eq_units : (decodeWhole b).magnitude = magnitudeUnits b * (2 : ℚ) ^ (-9 : ℤ) := by
  have hexp : sval4 (decodeWhole b).expEff - 3 = (max (exponentField b).toNat 1 - 1 : ℕ) + -9 := by
    rw [← sval4_decodeWhole_expEff_add_six he]
    ring
  rw [Outputs.magnitude, hexp, zpow_add₀ two_ne_zero, zpow_natCast, decodeWhole_sig_toNat he, magnitudeUnits]
  push_cast
  ring

/-- The number has the sign of the input. -/
theorem decodeWhole_value_of_finite :
    (decodeWhole b).value = (signFactor (signField b) : ℚ) * (decodeWhole b).magnitude := by
  rw [Outputs.value, (decodeWhole_finite b he).2]

theorem decodeWhole_value_eq_units :
    (decodeWhole b).value = (signFactor (signField b) : ℚ) * magnitudeUnits b * (2 : ℚ) ^ (-9 : ℤ) := by
  rw [decodeWhole_value_of_finite he, decodeWhole_magnitude_eq_units he, mul_assoc]

/-- The result of a finite input. -/
theorem decodeWhole_abs_of_finite :
    (decodeWhole b).abs = .ok (.finite (signField b) (decodeWhole b).magnitude) := by
  obtain ⟨hkind, hsign⟩ := decodeWhole_finite b he
  rw [Outputs.abs_of_kind_finite hkind, hsign]

/-- The largest finite magnitude is 15 × 2^13 units, which is 240 (R97). -/
theorem magnitudeUnits_le : magnitudeUnits b ≤ 122880 := by
  have hm : (mantissaField b).toNat < 8 := (mantissaField b).isLt
  have hexp : (exponentField b).toNat ≤ 14 := (toNat_le_fourteen_iff _).2 he
  calc magnitudeUnits b
      ≤ 15 * 2 ^ 13 := Nat.mul_le_mul (by split_ifs <;> omega) (Nat.pow_le_pow_right two_pos (by omega))
    _ = 122880 := rfl

end Finite

end Sys2Proof.Machine
end

section
/-! SUPPORT. The order of the finite inputs: the magnitude grows from one input to the next, so bits 6 to 0 fix it and it fixes
them (R96, R99). -/

namespace Sys2Proof

/-- Bit 7 is the sign, and the seven bits below it are the rest of the byte (R60). -/
theorem toNat_eq_signField_add (b : Byte) : b.toNat = 128 * (signField b).toNat + b.toNat % 128 := by
  have hlt : b.toNat < 256 := b.isLt
  have hsign : (signField b).toNat = b.toNat / 128 := by
    rw [signField, BitVec.extractLsb'_toNat, Nat.shiftRight_eq_div_pow]
    omega
  omega

/-- The seven bits below the sign bit, as a mask. -/
theorem toNat_and_0x7F (b : Byte) : (b &&& 0x7F).toNat = b.toNat % 128 :=
  Nat.and_two_pow_sub_one_eq_mod b.toNat 7

/-- A sign and the seven bits below it make up the byte. -/
theorem eq_of_signField_eq {a b : Byte} (hs : signField a = signField b) (h : a.toNat % 128 = b.toNat % 128) : a = b := by
  apply BitVec.eq_of_toNat_eq
  rw [toNat_eq_signField_add a, toNat_eq_signField_add b, hs, h]

/-- Up to 0x77 below the sign bit an input is finite (R67). -/
theorem exponentField_ne_fifteen_iff : ∀ b : Byte, exponentField b ≠ 15#4 ↔ b.toNat % 128 < 120 := by decide

/-- Bits 6 to 3 and bits 2 to 0 lie below the sign bit. -/
theorem fields_ofNat_mod :
    ∀ b : Byte, exponentField (BitVec.ofNat 8 (b.toNat % 128)) = exponentField b ∧
      mantissaField (BitVec.ofNat 8 (b.toNat % 128)) = mantissaField b := by decide

/-- The fields of the next input: one more in the mantissa field, or a carry out of it. -/
theorem fields_add_one : ∀ b : Byte, b < 0x77 →
    (exponentField (b + 1) = exponentField b ∧ (mantissaField (b + 1)).toNat = (mantissaField b).toNat + 1) ∨
    ((mantissaField b).toNat = 7 ∧ (exponentField (b + 1)).toNat = (exponentField b).toNat + 1 ∧
      (mantissaField (b + 1)).toNat = 0) := by decide

theorem and_0x7F_eq_zero_iff : ∀ b : Byte, b &&& 0x7F = 0 ↔ b = 0x00 ∨ b = 0x80 := by decide

theorem signField_eq_zero_iff : ∀ b : Byte, signField b = 0#1 ↔ b.toNat < 128 := by decide

theorem signField_eq_one_iff : ∀ b : Byte, signField b = 1#1 ↔ 128 ≤ b.toNat := by decide

namespace Machine

/-- The magnitude is made of the exponent and the mantissa field alone: the sign has no part in it (R95). -/
theorem magnitudeUnits_ofNat_mod (b : Byte) : magnitudeUnits (BitVec.ofNat 8 (b.toNat % 128)) = magnitudeUnits b := by
  obtain ⟨he, hm⟩ := fields_ofNat_mod b
  simp only [magnitudeUnits, he, hm]

/-- From one input to the next the magnitude grows by one step of the exponent field: m grows by one, or it is 7 and the carry
comes to 8 + 8 steps, which are 8 steps of the next exponent field (R96). -/
theorem magnitudeUnits_add_one {b : Byte} (hb : b < 0x77) :
    magnitudeUnits (b + 1) = magnitudeUnits b + 2 ^ (max (exponentField b).toNat 1 - 1) := by
  obtain ⟨he, hm⟩ | ⟨h7, he, hm⟩ := fields_add_one b hb
  · simp only [magnitudeUnits, he, hm]
    ring
  · have hne : exponentField (b + 1) ≠ 0#4 := fun h => by
      rw [h] at he
      exact Nat.succ_ne_zero _ he.symm
    by_cases h0 : exponentField b = 0#4
    · simp only [magnitudeUnits, if_neg hne, he, hm, h7, h0, if_true]
      rfl
    · have hpos : 0 < (exponentField b).toNat := BitVec.toNat_pos_of_ne_zero h0
      have hexp : max ((exponentField b).toNat + 1) 1 - 1 = max (exponentField b).toNat 1 - 1 + 1 := by omega
      simp only [magnitudeUnits, if_neg h0, if_neg hne, he, hm, h7, hexp, pow_succ]
      ring

/-- The magnitude grows with the seven bits below the sign (R96). -/
theorem magnitudeUnits_strictMonoOn : StrictMonoOn (fun n => magnitudeUnits (BitVec.ofNat 8 n)) (Set.Iio 120) := by
  refine strictMonoOn_of_lt_add_one Set.ordConnected_Iio fun n _ _ hn => ?_
  have hlt : n + 1 < 120 := hn
  have hbyte : BitVec.ofNat 8 n < 0x77 := by
    rw [BitVec.lt_def, BitVec.toNat_ofNat, Nat.mod_eq_of_lt (by omega)]
    show n < 119
    omega
  have hnext : BitVec.ofNat 8 (n + 1) = BitVec.ofNat 8 n + 1 := BitVec.ofNat_add n 1
  simp only [hnext, magnitudeUnits_add_one hbyte]
  exact Nat.lt_add_of_pos_right (Nat.two_pow_pos _)

section Finite

variable {a b : Byte}

theorem magnitudeUnits_lt (h : a.toNat % 128 < b.toNat % 128) (hb : b.toNat % 128 < 120) :
    magnitudeUnits a < magnitudeUnits b := by
  rw [← magnitudeUnits_ofNat_mod a, ← magnitudeUnits_ofNat_mod b]
  exact magnitudeUnits_strictMonoOn (h.trans hb) hb h

theorem mod_eq_of_magnitudeUnits_eq (ha : exponentField a ≠ 15#4) (hb : exponentField b ≠ 15#4)
    (h : magnitudeUnits a = magnitudeUnits b) : a.toNat % 128 = b.toNat % 128 := by
  rw [← magnitudeUnits_ofNat_mod a, ← magnitudeUnits_ofNat_mod b] at h
  exact magnitudeUnits_strictMonoOn.injOn ((exponentField_ne_fifteen_iff a).1 ha) ((exponentField_ne_fifteen_iff b).1 hb) h

end Finite

/-- The zeros are the finite inputs without a magnitude (R90). -/
theorem and_0x7F_eq_zero_of_magnitude_eq_zero {b : Byte} (hb : exponentField b ≠ 15#4)
    (h : (decodeWhole b).magnitude = 0) : b &&& 0x7F = 0 := by
  have hunits : magnitudeUnits b = 0 := by simpa [decodeWhole_magnitude_eq_units hb] using h
  have hmod : b.toNat % 128 = 0 := mod_eq_of_magnitudeUnits_eq (b := 0x00) hb (by decide) hunits
  exact BitVec.eq_of_toNat_eq ((toNat_and_0x7F b).trans hmod)

theorem decodeWhole_value_eq_zero {b : Byte} (hb : exponentField b ≠ 15#4) (h : magnitudeUnits b = 0) :
    (decodeWhole b).value = 0 := by
  rw [decodeWhole_value_eq_units hb, h, Nat.cast_zero, mul_zero, zero_mul]

/-! ### Signs -/

theorem signFactor_ne_zero (sgn : Bit) : signFactor sgn ≠ 0 := by
  unfold signFactor
  split_ifs <;> decide

/-- Different signs have opposite factors. -/
theorem signFactor_eq_neg_of_ne : ∀ {s t : Bit}, s ≠ t → signFactor s = -signFactor t := by decide

/-! ### The units at the ends of the classes (R97) -/

theorem two_zpow_neg_nine : (2 : ℚ) ^ (-9 : ℤ) = 1 / 512 := by norm_num

theorem two_zpow_neg_six : (2 : ℚ) ^ (-6 : ℤ) = 8 / 512 := by norm_num

section Ends

variable {b : Byte}

theorem magnitudeUnits_le_seven (h0 : exponentField b = 0#4) : magnitudeUnits b ≤ 7 := by
  have hm : (mantissaField b).toNat < 8 := (mantissaField b).isLt
  have hunits : magnitudeUnits b = (mantissaField b).toNat := by simp [magnitudeUnits, h0]
  omega

theorem eight_le_magnitudeUnits (h0 : exponentField b ≠ 0#4) : 8 ≤ magnitudeUnits b := by
  rw [magnitudeUnits, if_neg h0]
  exact (Nat.le_add_right 8 _).trans (Nat.le_mul_of_pos_right _ (Nat.two_pow_pos _))

theorem decodeWhole_magnitude_of_units {n : ℕ} (he : exponentField b ≠ 15#4) (hn : magnitudeUnits b = n) :
    (decodeWhole b).magnitude = n / 512 := by
  rw [decodeWhole_magnitude_eq_units he, hn, two_zpow_neg_nine, mul_one_div]

end Ends

/-! ### Values in order (R96) -/

/-- One step of the exponent field, as a rational. -/
theorem units_step (b : Byte) :
    ((2 ^ (max (exponentField b).toNat 1 - 1) : ℕ) : ℚ) * 2 ^ (-9 : ℤ) =
      2 ^ ((max (exponentField b).toNat 1 : ℤ) - 10) := by
  have hexp : (max (exponentField b).toNat 1 : ℤ) - 10 = (max (exponentField b).toNat 1 - 1 : ℕ) + -9 := by omega
  rw [hexp, zpow_add₀ two_ne_zero, zpow_natCast]
  push_cast
  rfl

/-- From one input to the next the magnitude grows by 2^(max(e, 1) - 10) (R96). -/
theorem decodeWhole_magnitude_add_one {b : Byte} (hb : b < 0x77) :
    (decodeWhole (b + 1)).magnitude =
      (decodeWhole b).magnitude + (2 : ℚ) ^ ((max (exponentField b).toNat 1 : ℤ) - 10) := by
  have hlt : b.toNat < 119 := hb
  have hnext : (b + 1).toNat = b.toNat + 1 := BitVec.toNat_add_of_lt (show b.toNat + 1 < 256 by omega)
  have hfinite : exponentField b ≠ 15#4 := (exponentField_ne_fifteen_iff b).2 (by omega)
  have hfinite' : exponentField (b + 1) ≠ 15#4 := (exponentField_ne_fifteen_iff _).2 (by omega)
  rw [decodeWhole_magnitude_eq_units hfinite, decodeWhole_magnitude_eq_units hfinite', magnitudeUnits_add_one hb,
    ← units_step b, Nat.cast_add, add_mul]

section Order

variable {a b : Byte} (ha : exponentField a ≠ 15#4) (hb : exponentField b ≠ 15#4)
include ha hb

theorem decodeWhole_magnitude_lt (h : a.toNat % 128 < b.toNat % 128) :
    (decodeWhole a).magnitude < (decodeWhole b).magnitude := by
  have hunits : magnitudeUnits a < magnitudeUnits b := magnitudeUnits_lt h ((exponentField_ne_fifteen_iff b).1 hb)
  rw [decodeWhole_magnitude_eq_units ha, decodeWhole_magnitude_eq_units hb]
  gcongr

theorem mod_eq_of_magnitude_eq (h : (decodeWhole a).magnitude = (decodeWhole b).magnitude) :
    a.toNat % 128 = b.toNat % 128 := by
  rw [decodeWhole_magnitude_eq_units ha, decodeWhole_magnitude_eq_units hb] at h
  exact mod_eq_of_magnitudeUnits_eq ha hb (by exact_mod_cast mul_right_cancel₀ (by positivity) h)

/-- Finite inputs with the same number are the same input, or both are zeros (R99). -/
theorem eq_or_zeros_of_value_eq (h : (decodeWhole a).value = (decodeWhole b).value) :
    a = b ∨ (a &&& 0x7F = 0 ∧ b &&& 0x7F = 0) := by
  have hfactor : (signFactor (signField b) : ℚ) ≠ 0 := Int.cast_ne_zero.2 (signFactor_ne_zero _)
  rw [decodeWhole_value_of_finite ha, decodeWhole_value_of_finite hb] at h
  by_cases hs : signField a = signField b
  · left
    rw [hs] at h
    exact eq_of_signField_eq hs (mod_eq_of_magnitude_eq ha hb (mul_left_cancel₀ hfactor h))
  · right
    rw [signFactor_eq_neg_of_ne hs, Int.cast_neg, neg_mul, ← mul_neg] at h
    have hneg : -(decodeWhole a).magnitude = (decodeWhole b).magnitude := mul_left_cancel₀ hfactor h
    have hanonneg : 0 ≤ (decodeWhole a).magnitude := Outputs.magnitude_nonneg _
    have hbnonneg : 0 ≤ (decodeWhole b).magnitude := Outputs.magnitude_nonneg _
    have hazero : (decodeWhole a).magnitude = 0 := by linarith
    have hbzero : (decodeWhole b).magnitude = 0 := by linarith
    exact ⟨and_0x7F_eq_zero_of_magnitude_eq_zero ha hazero, and_0x7F_eq_zero_of_magnitude_eq_zero hb hbzero⟩

end Order

/-- Of two positive results the one with the smaller magnitude lies below. -/
theorem below_finite_of_lt {m₁ m₂ : ℚ} (h : m₁ < m₂) : (Decoded.finite 0#1 m₁).below (.finite 0#1 m₂) = true := by
  simpa [Decoded.below, signFactor] using h

/-- Of two negative results the one with the larger magnitude lies below. -/
theorem below_finite_neg_of_lt {m₁ m₂ : ℚ} (h : m₁ < m₂) :
    (Decoded.finite 1#1 m₂).below (.finite 1#1 m₁) = true := by
  simpa [Decoded.below, signFactor] using h

/-! ### The counts (R99) -/

/-- A list has as many different images as `k` has members, where each image is that of one member of `k`. -/
theorem length_dedup_map_of_representatives {α β : Type} [DecidableEq β] {f : α → β} {l k : List α} (hk : k.Nodup)
    (hsub : ∀ a ∈ k, a ∈ l) (hinj : ∀ a ∈ k, ∀ b ∈ k, f a = f b → a = b) (hcover : ∀ a ∈ l, ∃ c ∈ k, f c = f a) :
    (l.map f).dedup.length = k.length := by
  have hperm : (l.map f).dedup.Perm (k.map f) := by
    refine (List.perm_ext_iff_of_nodup (List.nodup_dedup _) (hk.map_on hinj)).2 fun x => ?_
    simp only [List.mem_dedup, List.mem_map]
    constructor
    · rintro ⟨a, ha, rfl⟩
      exact hcover a ha
    · rintro ⟨c, hc, rfl⟩
      exact ⟨c, hsub c hc, rfl⟩
  rw [hperm.length_eq, List.length_map]

/-- The finite inputs, in rising order of their words. -/
def finiteInputs : List Byte :=
  ((List.range 256).map (BitVec.ofNat 8)).filter fun b => exponentField b != 15#4

theorem mem_finiteInputs_iff (b : Byte) : b ∈ finiteInputs ↔ exponentField b ≠ 15#4 := by
  have hall : b ∈ (List.range 256).map (BitVec.ofNat 8) :=
    List.mem_map.2 ⟨b.toNat, List.mem_range.2 b.isLt, BitVec.ofNat_toNat 8 b⟩
  simp [finiteInputs, hall]

/-- Numbers that fit the port are words of their own. -/
theorem nodup_map_ofNat_range {n : ℕ} (hn : n ≤ 256) : ((List.range n).map (BitVec.ofNat 8)).Nodup := by
  refine List.nodup_range.map_on fun i hi k hk h => ?_
  have hilt : i < n := List.mem_range.1 hi
  have hklt : k < n := List.mem_range.1 hk
  have hmod : i % 256 = k % 256 := congrArg BitVec.toNat h
  omega

theorem nodup_finiteInputs : finiteInputs.Nodup := (nodup_map_ofNat_range le_rfl).filter _

theorem length_finiteInputs : finiteInputs.length = 240 := by decide +kernel

/-- Of the finite inputs all but -0.0 stand for different numbers, and -0.0 for that of +0.0. -/
theorem length_dedup_values : (finiteInputs.map fun b => (decodeWhole b).value).dedup.length = 239 := by
  have hmem (b : Byte) : b ∈ finiteInputs.erase 0x80 ↔ b ≠ 0x80 ∧ exponentField b ≠ 15#4 := by
    rw [nodup_finiteInputs.mem_erase_iff, mem_finiteInputs_iff]
  have hlength : (finiteInputs.erase 0x80).length = 239 := by
    rw [List.length_erase_of_mem ((mem_finiteInputs_iff _).2 (by decide)), length_finiteInputs]
  rw [← hlength]
  refine length_dedup_map_of_representatives (nodup_finiteInputs.erase _) (fun _ => List.mem_of_mem_erase) ?_ ?_
  · simp only [hmem]
    rintro a ⟨hane, ha⟩ b ⟨hbne, hb⟩ h
    obtain hab | ⟨hazero, hbzero⟩ := eq_or_zeros_of_value_eq ha hb h
    · exact hab
    · rw [((and_0x7F_eq_zero_iff a).1 hazero).resolve_right hane, ((and_0x7F_eq_zero_iff b).1 hbzero).resolve_right hbne]
  · simp only [hmem, mem_finiteInputs_iff]
    intro a ha
    by_cases hane : a = 0x80
    · have hplus : (decodeWhole 0x00).value = 0 := decodeWhole_value_eq_zero (by decide) (by decide)
      have hminus : (decodeWhole 0x80).value = 0 := decodeWhole_value_eq_zero (by decide) (by decide)
      exact ⟨0x00, by decide, by rw [hane, hplus, hminus]⟩
    · exact ⟨a, ⟨hane, ha⟩, rfl⟩

/-- The magnitudes are those of the positive finite inputs, 0x00 to 0x77. -/
theorem length_dedup_magnitudes : (finiteInputs.map fun b => (decodeWhole b).magnitude).dedup.length = 120 := by
  have hmem (b : Byte) (h : b ∈ (List.range 120).map (BitVec.ofNat 8)) : b.toNat < 120 := by
    obtain ⟨n, hn, rfl⟩ := List.mem_map.1 h
    have hlt : n < 120 := List.mem_range.1 hn
    rw [BitVec.toNat_ofNat]
    omega
  have hfinite (b : Byte) (h : b.toNat < 120) : exponentField b ≠ 15#4 := (exponentField_ne_fifteen_iff b).2 (by omega)
  have hlength : ((List.range 120).map (BitVec.ofNat 8)).length = 120 := by rw [List.length_map, List.length_range]
  rw [← hlength]
  refine length_dedup_map_of_representatives (nodup_map_ofNat_range (by decide)) (fun b hb => ?_) (fun a ha b hb h => ?_)
    fun a ha => ?_
  · exact (mem_finiteInputs_iff b).2 (hfinite b (hmem b hb))
  · have halt : a.toNat < 120 := hmem a ha
    have hblt : b.toNat < 120 := hmem b hb
    have hmod : a.toNat % 128 = b.toNat % 128 := mod_eq_of_magnitude_eq (hfinite a halt) (hfinite b hblt) h
    exact BitVec.eq_of_toNat_eq (by omega)
  · have hafinite : exponentField a ≠ 15#4 := (mem_finiteInputs_iff a).1 ha
    have hcfinite : exponentField (BitVec.ofNat 8 (a.toNat % 128)) ≠ 15#4 := (fields_ofNat_mod a).1 ▸ hafinite
    have hlt : a.toNat % 128 < 120 := (exponentField_ne_fifteen_iff a).1 hafinite
    refine ⟨_, List.mem_map.2 ⟨a.toNat % 128, List.mem_range.2 hlt, rfl⟩, ?_⟩
    rw [decodeWhole_magnitude_eq_units hcfinite, decodeWhole_magnitude_eq_units hafinite, magnitudeUnits_ofNat_mod]

/-- Counting outputs over the 256 words is counting the inputs of a class. -/
theorem countP_decodeWhole {p : Outputs → Bool} {c : DecClass} (h : ∀ b, p (decodeWhole b) = true ↔ (decode b).cls = c) :
    ((List.range 256).map fun n => decodeWhole (BitVec.ofNat 8 n)).countP p = classCount c := by
  rw [List.countP_map]
  refine List.countP_congr fun n _ => ?_
  simp [h]

theorem decodeWhole_bundle_eq_nan_iff (b : Byte) : (decodeWhole b).bundle = 0x400 ↔ (decode b).cls = .nan := by
  constructor
  · intro h
    have hports : decodeWhole b = Outputs.ofBundle 0x400 := by rw [← h, Outputs.ofBundle_bundle]
    have hkind : (decodeWhole b).kind = 0b10#2 := by rw [hports]; rfl
    exact (decode_cls_eq_nan_iff_fields b).2 (decodeWhole_kind_eq_nan_iff.1 hkind)
  · intro h
    rw [decodeWhole_of_cls_nan h]
    rfl

theorem filter_finite_decodeWhole_eq :
    ((List.range 256).map fun n => decodeWhole (BitVec.ofNat 8 n)).filter (fun o => o.kind == 0b00#2) =
      finiteInputs.map decodeWhole := by
  have hmap : ((List.range 256).map fun n => decodeWhole (BitVec.ofNat 8 n)) =
      ((List.range 256).map (BitVec.ofNat 8)).map decodeWhole := by
    rw [List.map_map]
    rfl
  have hfinite : (fun o : Outputs => o.kind == 0b00#2) ∘ decodeWhole = fun b => exponentField b != 15#4 := by
    funext b
    rw [Function.comp_apply, Bool.eq_iff_iff, beq_iff_eq, bne_iff_ne, decodeWhole_kind_eq_finite_iff]
  rw [hmap, List.filter_map, hfinite, finiteInputs]

end Machine

end Sys2Proof
end

section
/-! The obligations on the decode (40_decode.md). -/

namespace Sys2Proof.Machine

/-- Settles O48: what a step comes to is consistent, by the stimulus at the head of the queue. -/
theorem stepKeepsSettledOutputsTheDecode : Obligations.StepKeepsSettledOutputsTheDecode :=
  fun _ _ _ => stepAt_keeps_consistent

/-- Settles O50, by induction on the number of steps: a consistent block goes on, and stays consistent. -/
theorem everyRunGoesOnConsistently : Obligations.EveryRunGoesOnConsistently :=
  fun tPd n _ => runAt_consistent tPd n

/-- Settles O10: the two words of DEC_INF, and the ports of the class. -/
theorem infinityClassDrivesSignedInfinity : Obligations.InfinityClassDrivesSignedInfinity := by
  refine ⟨fun b => ⟨decode_cls_eq_inf_iff_fields b, decode_cls_eq_inf_iff_mask b, decode_cls_eq_inf_iff b,
    decode_of_cls_inf⟩, fun sgn s => ⟨_, execDecInf_eq sgn s, rfl, rfl, rfl, rfl, Outputs.abs_of_kind_infinity rfl, ?_⟩⟩
  revert sgn
  decide

/-- Settles O11: the fourteen words of DEC_NAN, and the one set of ports. -/
theorem nanClassDrivesTheSingleNaN : Obligations.NaNClassDrivesTheSingleNaN :=
  ⟨fun b => ⟨decode_cls_eq_nan_iff_fields b, decode_cls_eq_nan_iff b, decode_cls_eq_nan_iff_mask b, decode_of_cls_nan⟩,
    fun sgn m s => ⟨_, execDecNan_eq sgn m s, rfl, rfl, rfl, rfl, Outputs.abs_of_kind_nan rfl, rfl⟩⟩

/-- Settles O12: the effective exponent is EMIN and the implicit bit 0, so the magnitude is m × 2^-9. -/
theorem subnormalClassDrivesExactValue : Obligations.SubnormalClassDrivesExactValue := by
  refine ⟨fun b => ⟨decode_cls_eq_sub_iff_field b, decode_cls_eq_sub_iff_mask b, decode_of_cls_sub⟩, fun sgn m s => ?_⟩
  have hmag : Outputs.magnitude ⟨0b00#2, sgn, twos4 Config.emin, significand 0b0#1 m⟩ =
      m.toNat * (2 : ℚ) ^ (-9 : ℤ) := by
    rw [magnitude_of_ports (by decide) (by decide)]
    norm_num [Config.emin, Config.bias]
  have habs : Outputs.abs ⟨0b00#2, sgn, twos4 Config.emin, significand 0b0#1 m⟩ =
      .ok (.finite sgn (m.toNat * (2 : ℚ) ^ (-9 : ℤ))) := by
    rw [Outputs.abs_of_kind_finite rfl, hmag]
  refine ⟨_, execDecSub_eq sgn m s, rfl, rfl, twos4_emin, rfl, habs, ?_, ?_, ?_⟩
  · rintro rfl
    simpa using habs
  · rintro rfl rfl
    decide
  · rintro rfl rfl
    decide

/-- Settles O13: the effective exponent is e - 7 and the implicit bit 1, so the magnitude is (8 + m) × 2^(e - 10). -/
theorem normalClassDrivesExactValue : Obligations.NormalClassDrivesExactValue := by
  refine ⟨fun b => ⟨decode_cls_eq_norm_iff_field b, decode_cls_eq_norm_iff_mask b, decode_of_cls_norm⟩,
    fun sgn e m s hwf => ⟨_, execDecNorm_eq sgn e m s, rfl, rfl, rfl, rfl, ?_, ?_, ?_⟩⟩
  · obtain ⟨hlo, hhi⟩ := wellFormed_decNorm_iff.1 hwf
    obtain ⟨hmin, hmax⟩ := effectiveExponent_mem_range hlo hhi
    have hexp : effectiveExponent e - 3 = (e.toNat : ℤ) - 10 := by
      simp only [effectiveExponent, Config.bias]
      ring
    rw [Outputs.abs_of_kind_finite rfl, magnitude_of_ports (by omega) (by omega), hexp]
    norm_num
  · rintro rfl rfl rfl
    decide
  · rintro rfl rfl rfl
    decide

/-- Settles O15: the meanings are `decodeWhole`, which is R82 branch by branch. -/
theorem decodeIsTheWholeOperation : Obligations.DecodeIsTheWholeOperation :=
  fun b s => ⟨_, exec_decode b s, decodeWhole_kind_ne b, rfl⟩

/-- Settles O20: e - 7 fits four bits for the exponents of DEC_NORM, and the class's constraint leaves the two others out. -/
theorem biasSubtractionNeverWraps : Obligations.BiasSubtractionNeverWraps := by
  refine ⟨fun e hlo hhi => ?_, by decide, fun b sgn e m h => ?_⟩
  · obtain ⟨hmin, hmax⟩ := effectiveExponent_mem_range hlo hhi
    exact ⟨hmin, hmax, sval4_twos4 (by omega) (by omega), twos4_effectiveExponent e,
      (twos4_effectiveExponent e).trans (setWidth_sub_seven e).symm⟩
  · have hwf : (Instr.decNorm sgn e m).WellFormed := h ▸ decode_wellFormed b
    exact wellFormed_decNorm_iff.1 hwf

/-- Settles O21: the significand is the implicit bit above m. -/
theorem significandHoldsTheImplicitBit : Obligations.SignificandHoldsTheImplicitBit :=
  fun b s he => ⟨_, exec_decode b s, decodeWhole_sig_toNat he, decodeWhole_sig_eq_fraction he, decodeWhole_sig_top_bit he⟩

/-- Settles O22: the magnitude is the source's, and the sign that of the input. -/
theorem finiteValueIsTheSourcesFormula : Obligations.FiniteValueIsTheSourcesFormula := by
  intro b s he
  refine ⟨_, _, exec_decode b s, decodeWhole_abs_of_finite he, Outputs.magnitude_nonneg _, ?_, ?_, ?_⟩
  · rw [Decoded.number, State.driveOutputs_out, decodeWhole_value_of_finite he]
  · rw [State.driveOutputs_out, Outputs.value, Outputs.magnitude, mul_assoc]
  · rw [State.driveOutputs_out, decodeWhole_value_of_finite he, decodeWhole_magnitude he, mul_assoc]

/-- Settles O23: the integer is the sign times the magnitude in units of 2^-9. -/
theorem finiteValueTimes512IsABoundedInteger : Obligations.FiniteValueTimes512IsABoundedInteger := by
  intro b s he
  have hunits : magnitudeUnits b ≤ 122880 := magnitudeUnits_le he
  have hexp : (exponentField b).toNat ≤ 14 := (toNat_le_fourteen_iff _).2 he
  refine ⟨_, exec_decode b s, ?_⟩
  simp only [State.driveOutputs_out]
  rw [decodeWhole_integerImage he, decodeWhole_value_eq_units he, sval4_decodeWhole_expEff_add_six he]
  refine ⟨?_, ?_, ?_, by omega, by omega⟩
  · push_cast
    ring
  · unfold signFactor
    split_ifs <;> omega
  · unfold signFactor
    split_ifs <;> omega

/-- Settles O28: a NaN's ports hold nothing of its input, and the NaN condition gates the sign. -/
theorem nanInputsCannotBeToldApart : Obligations.NaNInputsCannotBeToldApart := by
  refine ⟨fun tPd s r b c hb hc hs hr => ⟨_, _, stepAt_of_presents tPd hs, stepAt_of_presents tPd hr, ?_, ?_⟩,
    fun b s => ⟨_, exec_decode b s, decodeWhole_sign_eq_gated b⟩⟩
  · exact (decodeWhole_of_cls_nan hb).trans (decodeWhole_of_cls_nan hc).symm
  · exact Outputs.abs_of_kind_nan (congrArg Outputs.kind (decodeWhole_of_cls_nan hb))

/-- Settles O29: bit 7 reaches no port but `sign`, and no port of a NaN. -/
theorem flippingTheSignBitFlipsOnlySign : Obligations.FlippingTheSignBitFlipsOnlySign := by
  intro tPd s r b hs hr
  refine ⟨_, _, stepAt_of_presents tPd hs, stepAt_of_presents tPd hr, decodeWhole_flip_sign, fun hnan => ?_⟩
  have hnan' : (decode (b ^^^ 0x80)).cls = .nan := (decode_cls_flip_sign b).trans hnan
  exact (decodeWhole_of_cls_nan hnan').trans (decodeWhole_of_cls_nan hnan).symm

/-- Settles O30: the magnitude grows with the seven bits below the sign, and a negative number falls as its magnitude grows. -/
theorem valueRisesWithTheInput : Obligations.ValueRisesWithTheInput := by
  intro tPd s r a b hs hr
  simp only [hs.settlesOn_iff, hr.settlesOn_iff]
  refine ⟨fun hab hb => ?_, fun ha hab hb => ?_, fun ha hb => ?_⟩
  · have hlt : a.toNat < b.toNat := hab
    have hle : b.toNat ≤ 120 := hb
    have hfa : exponentField a ≠ 15#4 := (exponentField_ne_fifteen_iff a).2 (by omega)
    have hsa : signField a = 0#1 := (signField_eq_zero_iff a).2 (by omega)
    obtain hlast | hbelow := hle.eq_or_lt
    · obtain rfl : b = 0x78 := BitVec.eq_of_toNat_eq hlast
      exact ⟨_, .infinity 0#1, decodeWhole_abs_of_finite hfa, by decide, rfl⟩
    · have hfb : exponentField b ≠ 15#4 := (exponentField_ne_fifteen_iff b).2 (by omega)
      have hsb : signField b = 0#1 := (signField_eq_zero_iff b).2 (by omega)
      refine ⟨_, _, decodeWhole_abs_of_finite hfa, decodeWhole_abs_of_finite hfb, ?_⟩
      rw [hsa, hsb]
      exact below_finite_of_lt (decodeWhole_magnitude_lt hfa hfb (by omega))
  · have hge : 128 ≤ a.toNat := ha
    have hlt : a.toNat < b.toNat := hab
    have hle : b.toNat ≤ 247 := hb
    have hfa : exponentField a ≠ 15#4 := (exponentField_ne_fifteen_iff a).2 (by omega)
    have hfb : exponentField b ≠ 15#4 := (exponentField_ne_fifteen_iff b).2 (by omega)
    refine ⟨_, _, decodeWhole_abs_of_finite hfa, decodeWhole_abs_of_finite hfb, ?_⟩
    rw [(signField_eq_one_iff a).2 hge, (signField_eq_one_iff b).2 (by omega)]
    exact below_finite_neg_of_lt (decodeWhole_magnitude_lt hfa hfb (by omega))
  · subst hb
    have hlt : a.toNat < 119 := ha
    have hnext : (a + 1).toNat = a.toNat + 1 := BitVec.toNat_add_of_lt (show a.toNat + 1 < 256 by omega)
    have hfa : exponentField a ≠ 15#4 := (exponentField_ne_fifteen_iff a).2 (by omega)
    have hfb : exponentField (a + 1) ≠ 15#4 := (exponentField_ne_fifteen_iff _).2 (by omega)
    refine ⟨_, _, _, _, decodeWhole_abs_of_finite hfa, decodeWhole_abs_of_finite hfb, rfl, rfl, ?_⟩
    have hplus : signFactor 0#1 = 1 := rfl
    rw [(signField_eq_zero_iff a).2 (by omega), (signField_eq_zero_iff _).2 (by omega), hplus, Int.cast_one, one_mul,
      one_mul, decodeWhole_magnitude_add_one ha]
    exact add_sub_cancel_left _ _

/-- Settles O31: the magnitude is a number of units of 2^-9, from 8 on in DEC_NORM and up to 7 in DEC_SUB. -/
theorem extremesOfTheFiniteMagnitudes : Obligations.ExtremesOfTheFiniteMagnitudes := by
  intro tPd s b he hs
  have hmag : (decodeWhole b).magnitude = magnitudeUnits b / 512 := decodeWhole_magnitude_of_units he rfl
  have hnamed {c : Byte} {n : ℕ} (h : b = c) (hn : magnitudeUnits c = n) : (decodeWhole b).magnitude = n / 512 :=
    decodeWhole_magnitude_of_units he (h ▸ hn)
  have hle : (decodeWhole b).magnitude ≤ 240 := by
    have hunits : (magnitudeUnits b : ℚ) ≤ 122880 := mod_cast magnitudeUnits_le he
    linarith
  simp only [two_zpow_neg_nine, two_zpow_neg_six]
  refine ⟨_, (hs.settlesOn_iff tPd _).2 (decodeWhole_abs_of_finite he), fun hne => ?_, hle, fun hsub => ?_, fun hnorm => ?_,
    fun k hk => ?_, fun h => (hnamed h (n := 1) (by decide)).trans (by norm_num),
    fun h => (hnamed h (n := 7) (by decide)).trans (by norm_num),
    fun h => (hnamed h (n := 8) (by decide)).trans (by norm_num),
    fun h => (hnamed h (n := 512) (by decide)).trans (by norm_num),
    fun h => (hnamed h (n := 65536) (by decide)).trans (by norm_num), fun h => ?_⟩
  · have hpos : 0 < magnitudeUnits b := Nat.pos_of_ne_zero fun h => hne (by simp [hmag, h])
    have hunits : (1 : ℚ) ≤ magnitudeUnits b := mod_cast hpos
    linarith
  · have hunits : (magnitudeUnits b : ℚ) ≤ 7 :=
      mod_cast magnitudeUnits_le_seven ((decode_cls_eq_sub_iff_field b).1 hsub)
    linarith
  · obtain ⟨hlo, -⟩ := (decode_cls_eq_norm_iff_field b).1 hnorm
    have hunits : (8 : ℚ) ≤ magnitudeUnits b := mod_cast eight_le_magnitudeUnits fun h => by simp [h] at hlo
    linarith
  · by_contra hk7
    have hpow : (2 : ℚ) ^ (8 : ℤ) ≤ (2 : ℚ) ^ k := zpow_le_zpow_right₀ one_le_two (by omega)
    linarith
  · have hunits : magnitudeUnits b = 122880 := by
      obtain rfl | rfl := h <;> decide
    rw [decodeWhole_magnitude_of_units he hunits]
    norm_num

/-- Settles O32: a result holds the sign and, by its magnitude, the other seven bits; each count is that of inputs which stand one
for each thing counted. -/
theorem finiteResultsAreDistinctAndCounted : Obligations.FiniteResultsAreDistinctAndCounted := by
  refine ⟨fun tPd s r a b x y ha hb hs hr hx hy => ?_, ?_⟩
  · obtain rfl := Except.ok.inj ((decodeWhole_abs_of_finite ha).symm.trans ((hs.settlesOn_iff tPd x).1 hx))
    obtain rfl := Except.ok.inj ((decodeWhole_abs_of_finite hb).symm.trans ((hr.settlesOn_iff tPd y).1 hy))
    constructor
    · intro hxy
      obtain ⟨hsign, hmag⟩ := Decoded.finite.inj hxy
      exact eq_of_signField_eq hsign (mod_eq_of_magnitude_eq ha hb hmag)
    · intro hnumber
      refine eq_or_zeros_of_value_eq ha hb ?_
      rw [decodeWhole_value_of_finite ha, decodeWhole_value_of_finite hb]
      exact Option.some.inj hnumber
  · dsimp only
    rw [filter_finite_decodeWhole_eq, List.length_map, List.map_map, List.map_map]
    refine ⟨length_finiteInputs, length_dedup_values, length_dedup_magnitudes, ?_, ?_⟩
    · refine (countP_decodeWhole (c := .inf) fun b => ?_).trans classCount_inf
      rw [beq_iff_eq, decodeWhole_kind_eq_infinity_iff, decode_cls_eq_inf_iff_fields]
    · refine (countP_decodeWhole (c := .nan) fun b => ?_).trans classCount_nan
      rw [beq_iff_eq, decodeWhole_bundle_eq_nan_iff]

/-- Settles O37: the class is the decoder's, and the result is what the decode stands for. -/
theorem everyInputGivesExactlyOneResult : Obligations.EveryInputGivesExactlyOneResult := by
  intro tPd s b hs
  refine ⟨⟨(decode b).cls, (classCondition_iff b _).2 rfl, fun c h => ((classCondition_iff b c).1 h).symm⟩, ?_⟩
  obtain ⟨d, hd⟩ := (decodeWhole b).abs_ok_of_kind_ne (decodeWhole_kind_ne b)
  refine ⟨d, (hs.settlesOn_iff tPd d).2 hd, fun d' hd' => ?_, ?_⟩
  · exact Except.ok.inj (((hs.settlesOn_iff tPd d').1 hd').symm.trans hd)
  · obtain ⟨-, h⟩ | ⟨-, h⟩ | ⟨-, h⟩ := Outputs.abs_ok_cases hd
    · exact .inl ⟨_, _, h⟩
    · exact .inr (.inl ⟨_, h⟩)
    · exact .inr (.inr h)

/-- Settles O54: the gates compute the whole operation, so the block built of them is the block. -/
theorem gateLevelFormRunsAsTheBlock : Obligations.GateLevelFormRunsAsTheBlock := by
  refine ⟨fun b s => ?_, gateRunAt_eq⟩
  rw [gateOutputs_eq]
  exact exec_decode b s

/-- Settles O58: the gates' block is the block, which settles on the decode of a presented byte and, from a consistent state,
shows the decode of its input at every settled moment. -/
theorem gatesAgreeWithTheBlockAtSettledMoments : Obligations.GatesAgreeWithTheBlockAtSettledMoments := by
  refine ⟨fun tPd tPd' s r b hs hr => ?_, fun tPd tPd' n n' s r t u hs hr ht hu => ?_⟩
  · rw [gateStep_eq]
    exact ⟨_, _, stepAt_of_presents tPd hs, stepAt_of_presents tPd' hr, rfl, rfl, rfl, (gateOutputs_eq b).symm⟩
  · rw [gateRunAt_eq] at hu
    exact (runAt_keeps_consistent hs ht).out_eq_of_input_eq (runAt_keeps_consistent hr hu)

/-- Settles O19: DEC_SUB drives the pattern of EMIN, which four bits hold. -/
theorem constantsOfTheFormat : Obligations.ConstantsOfTheFormat :=
  ⟨rfl, rfl, rfl, rfl, fun sgn m s => ⟨_, execDecSub_eq sgn m s, sval4_twos4 (by decide) (by decide)⟩⟩

/-- Settles O27: the two results are zeros with the signs of their inputs. -/
theorem signedZerosDifferOnlyInSign : Obligations.SignedZerosDifferOnlyInSign := by
  intro tPd s r hs hr
  have hplus : (decodeWhole 0x00).abs = .ok (.finite 0#1 0) := (decodeWhole_abs_eq_zero_iff 0x00).2 (.inl rfl)
  have hminus : (decodeWhole 0x80).abs = .ok (.finite 1#1 0) := (decodeWhole_abs_eq_zero_iff 0x80).2 (.inr rfl)
  obtain ⟨hplusBundle, hminusBundle, hports, hsign⟩ :
      (decodeWhole 0x00).bundle = 0x0A0 ∧ (decodeWhole 0x80).bundle = 0x1A0 ∧
        decodeWhole 0x80 = { decodeWhole 0x00 with sign := 1#1 } ∧ (decodeWhole 0x00).sign = 0#1 := by decide
  exact ⟨_, _, _, _, stepAt_of_presents tPd hs, stepAt_of_presents tPd hr, hplusBundle, hminusBundle, hports, hsign,
    hplus, hminus, by simp, by simp [Decoded.number], by simp [Decoded.number]⟩

/-- Settles O34: an idle step waits for the settled moment of the word on the port, which decodes to its instruction. -/
theorem stepRunsTheInstructionOnThePort : Obligations.StepRunsTheInstructionOnThePort := by
  intro s i hi hdrives hp
  have hbyte : s.settlingByte = some (encode i) := (State.settlingByte_eq_some s _).2 hdrives
  rw [step_eq, stepAt_of_pending_nil Config.tPd hp, settle_of_settlingByte_eq_some _ hbyte, decode_encode hi]
  rfl

/-- Settles O36: `DECODE` as one equation. -/
theorem decodeStimulusSettlesOnItsDecode : Obligations.DecodeStimulusSettlesOnItsDecode :=
  fun tPd _ _ => stepAt_of_presents tPd

/-- Settles O38: both blocks settle on the decode of the same input. -/
theorem sameInputGivesTheSameBundle : Obligations.SameInputGivesTheSameBundle :=
  fun tPd tPd' _ _ _ hs hr => ⟨_, _, stepAt_of_presents tPd hs, stepAt_of_presents tPd' hr, rfl⟩

end Sys2Proof.Machine
end

section
/-! SUPPORT. The decoder on numbers: on either side of the port's range, and on words of the opcode table (R121, R122). -/

namespace Sys2Proof

section Number

variable {w : ℕ}

/-- A number that fits the port is decoded as its byte. -/
theorem decodeWord_of_lt (h : w < 256) : decodeWord w = .ok (decode (BitVec.ofNat 8 w)) := if_pos h

/-- A number that does not fit the port is turned away (R121). -/
theorem decodeWord_of_le (h : 256 ≤ w) : decodeWord w = .error .outOfRange := if_neg (Nat.not_lt.2 h)

/-- A word of the table's one width is decoded as its number. -/
theorem decodeTableWord_eight (w : ℕ) : decodeTableWord 8 w = (decodeWord w).toOption := if_pos rfl

/-- A number that does not fit the port is a word of the table at no width. -/
theorem decodeTableWord_of_le (nbits : ℕ) (h : 256 ≤ w) : decodeTableWord nbits w = none := by
  rw [decodeTableWord, decodeWord_of_le h]
  exact ite_self none

end Number

end Sys2Proof
end

section
/-! The obligations on exceptions (60_exceptions.md). -/

namespace Sys2Proof.Machine

/-- Settles O46: a step either goes on, or it is a `sample` that reads 2'b11 from a settled block. -/
theorem onlyAnUndefinedKindStopsTheBlock : Obligations.OnlyAnUndefinedKindStopsTheBlock := by
  intro tPd s
  obtain ⟨t, hnext⟩ | ⟨hsettled, hhead, hkind, hfault⟩ := stepAt_next_or_fault tPd s
  · rw [hnext]
    exact ⟨nofun, nofun⟩
  · rw [hfault]
    exact ⟨fun _ _ => ⟨hsettled, hhead, hkind⟩, nofun⟩

/-- Settles O9: the decoder on numbers compares with 256 before it decodes, and the table's decoder goes through it. -/
theorem numberOutsideThePortIsTurnedAway : Obligations.NumberOutsideThePortIsTurnedAway := by
  refine fun w => ⟨fun hout => ⟨decodeWord_of_le hout, fun nbits => decodeTableWord_of_le nbits hout⟩, fun hfits => ?_⟩
  have hword : decodeWord w = .ok (decode (BitVec.ofNat 8 w)) := decodeWord_of_lt hfits
  exact ⟨hword, by rw [decodeTableWord_eight, hword]; rfl⟩

end Sys2Proof.Machine
end

section
/-! SUPPORT. Waiting with nothing to settle on, and a change followed by a long enough hold, which settles the block (R80). -/

namespace Sys2Proof.Machine

/-- With nothing to settle on, waiting ends in a moment of free values (R140, R145; log 2, log 5). -/
theorem settle_of_settlingByte_eq_none {s : State} (run : Byte → State → Host.Outcome State Fault Refusal)
    (hb : s.settlingByte = none) : settle run s = .next (s.markUnsettled 0) := by
  simp only [settle, hb]

/-- A change of power, as the whole state it leaves (R140). -/
theorem State.setPower_of_ne {s : State} {stable : Bool} (h : stable ≠ s.powerStable) :
    s.setPower stable = { s with powerStable := stable, stability := .unsettled 0 } := if_neg h

/-- Time alone touches neither what stands on the input and the power nor the queue. -/
theorem elapse_next_frame (tPd t : Nat) (s : State) :
    ∃ u, elapse tPd (fun b => exec (decode b)) t s = .next u ∧
      u.powerStable = s.powerStable ∧ u.input = s.input ∧ u.pending = s.pending := by
  obtain ⟨b, -, -, h⟩ | ⟨b, held, -, -, -, h⟩ | ⟨b, held, -, -, -, h⟩ | ⟨-, h⟩ :=
    elapse_cases (fun b => exec (decode b)) tPd t s
  · exact ⟨_, h.trans (exec_decode b _), rfl, rfl, rfl⟩
  · exact ⟨_, h.trans (exec_decode b _), rfl, rfl, rfl⟩
  · exact ⟨_, h, rfl, rfl, rfl⟩
  · exact ⟨_, h, rfl, rfl, rfl⟩

section Hold

variable {tPd t : Nat} {s : State} {b : Byte} {rest : List Stimulus}

/-- A valid input held for T_pd is settled on, however long it had been held before (R80). -/
theorem elapse_of_tPd_le (hdrives : s.Drives b) (hle : tPd ≤ t) :
    elapse tPd (fun b => exec (decode b)) t s = .next (s.markSettled.driveOutputs (decodeWhole b)) := by
  have hbyte : s.settlingByte = some b := (State.settlingByte_eq_some s b).2 hdrives
  cases hs : s.stability with
  | settled =>
    have hsame : s.markSettled = s := by rw [State.markSettled, ← hs]
    rw [elapse_of_settled _ hbyte hs, exec_decode, hsame]
  | unsettled held => rw [elapse_of_le _ hbyte hs (Nat.le_add_left_of_le hle), exec_decode]

/-- A hold of at least T_pd leaves the block settled on the input on its port (R80). -/
theorem stepAt_hold_settledOn (hdrives : s.Drives b) (hp : s.pending = .hold t :: rest) (hle : tPd ≤ t) :
    ∃ u, stepAt tPd s = .next u ∧ u.SettledOn b ∧ u.pending = rest := by
  have hrest : (s.withPending rest).Drives b := hdrives
  exact ⟨_, (stepAt_of_pending_hold tPd hp).trans (elapse_of_tPd_le hrest hle), ⟨hdrives, rfl, rfl⟩, rfl⟩

/-- A stimulus that leaves `b` on the port of a powered block, in the state `c`, then a hold of at least T_pd: after these
two steps the block is settled on `b`, and every longer run goes on from there. -/
theorem runAt_change_hold_settledOn {c : State} (hstep : stepAt tPd s = elapse tPd (fun b => exec (decode b)) 0 c)
    (hdrives : c.Drives b) (hp : c.pending = .hold t :: rest) (hle : tPd ≤ t) :
    ∃ u, (∀ n, runAt tPd (n + 2) s = runAt tPd n u) ∧ u.SettledOn b ∧ u.pending = rest := by
  obtain ⟨hpower, hinput⟩ := hdrives
  obtain ⟨v, hv, hvpower, hvinput, hvpending⟩ := elapse_next_frame tPd 0 c
  have hvdrives : v.Drives b := ⟨hvpower.trans hpower, hvinput.trans hinput⟩
  obtain ⟨u, hu, hsettled, hrest⟩ := stepAt_hold_settledOn hvdrives (hvpending.trans hp) hle
  exact ⟨u, fun n => (runAt_succ_of_next (hstep.trans hv)).trans (runAt_succ_of_next hu), hsettled, hrest⟩

end Hold

end Sys2Proof.Machine
end

section
/-! The obligations on power-up and timing (70_reset_and_hazards.md). -/

namespace Sys2Proof.Machine

/-- Settles O41: with no word to settle on, waiting and holding both end in a moment of free values. -/
theorem nothingSettlesWithoutPowerAndValidInput : Obligations.NothingSettlesWithoutPowerAndValidInput := by
  intro tPd s hcannot hwaits
  obtain hnil | ⟨t, hhead⟩ := hwaits
  · have hbyte : s.settlingByte = none := (State.settlingByte_eq_none s).2 hcannot
    have hqueue : s.pending.tail = s.pending := by simp [hnil]
    rw [stepAt_of_pending_nil tPd hnil, settle_of_settlingByte_eq_none _ hbyte, hqueue]
    rfl
  · have hbyte : (s.withPending s.pending.tail).settlingByte = none := (State.settlingByte_eq_none _).2 hcannot
    rw [stepAt_of_pending_hold tPd (List.eq_cons_of_mem_head? hhead), elapse_of_settlingByte_eq_none _ hbyte]
    rfl

/-- Settles O42: either stimulus is a change, and leaves the block with no word to settle on. -/
theorem powerLossOrInvalidLevelUnsettles : Obligations.PowerLossOrInvalidLevelUnsettles := by
  intro tPd s
  constructor
  · intro hpower hhead
    have hne : false ≠ (s.withPending s.pending.tail).powerStable := by simp [hpower]
    have hbyte : ((s.withPending s.pending.tail).setPower false).settlingByte = none :=
      (State.settlingByte_eq_none _).2 (.inl (State.setPower_powerStable _ _))
    rw [stepAt_of_pending_power tPd (List.eq_cons_of_mem_head? hhead), elapse_of_settlingByte_eq_none _ hbyte,
      State.setPower_of_ne hne]
    rfl
  · intro hvalid hhead
    have hne : .invalid ≠ (s.withPending s.pending.tail).input := hvalid.symm
    have hbyte : ((s.withPending s.pending.tail).changeInput .invalid).settlingByte = none :=
      (State.settlingByte_eq_none _).2 (.inr (State.changeInput_input _ _))
    rw [stepAt_of_pending_drive tPd (List.eq_cons_of_mem_head? hhead), elapse_of_settlingByte_eq_none _ hbyte,
      State.changeInput_of_ne hne]
    rfl

/-- Settles O43: power becoming stable leaves `b` on the port of a powered block, and the hold settles it. -/
theorem powerUpThenHoldSettles : Obligations.PowerUpThenHoldSettles := by
  intro tPd t s b rest _ hinput hp hle
  have hdrives : ((s.withPending (.hold t :: rest)).setPower true).Drives b :=
    ⟨State.setPower_powerStable _ _, (State.setPower_input _ _).trans hinput⟩
  obtain ⟨u, hrun, ⟨⟨hpower, hb⟩, hsettled, hout⟩, hrest⟩ :=
    runAt_change_hold_settledOn (stepAt_of_pending_power tPd hp) hdrives (State.setPower_pending _ _) hle
  exact ⟨u, hrun 0, hpower, hb, hsettled, hout, hrest⟩

/-- Settles O53: the period leaves a hold of at least T_pd, and reading the settled block changes nothing. -/
theorem longEnoughPeriodSamplesTheDecode : Obligations.LongEnoughPeriodSamplesTheDecode := by
  intro tPd setup period s b rest hperiod hpower hp
  have hle : tPd ≤ period - setup := Nat.le_sub_of_add_le hperiod
  have hdrives : ((s.withPending (.hold (period - setup) :: .sample :: rest)).changeInput (.driven b)).Drives b :=
    ⟨(State.changeInput_powerStable _ _).trans hpower, State.changeInput_input _ _⟩
  obtain ⟨u, hrun, hu, hsample⟩ :=
    runAt_change_hold_settledOn (stepAt_of_pending_drive tPd hp) hdrives (State.changeInput_pending _ _) hle
  have hread : (u.withPending rest).SettledOn b := hu.withPending rest
  have hstep : stepAt tPd u = .next (u.withPending rest) :=
    (stepAt_of_pending_sample tPd hsample).trans hread.sampleOutputs_eq
  obtain ⟨⟨-, hb⟩, hsettled, hout⟩ := hread
  exact ⟨u.withPending rest, (hrun 1).trans (runAt_succ_of_next hstep), hsettled, hb, hout, rfl⟩

end Sys2Proof.Machine
end
